-- ==== Sys2Proof/Word.lean ====
section
/-! DEFINITION. The machine's value types (spec 00 section 5.1: every value is unsigned). -/

namespace Sys2Proof

/-- `u8`: a register, a memory byte, a timer. -/
abbrev Byte := BitVec 8

/-- `u16`: an opcode, `PC`, `I`, a return address. -/
abbrev Word := BitVec 16

/-- `u4`: the X, Y and N fields, a register index, a key code. -/
abbrev Nibble := BitVec 4

/-- `u12`: the NNN field. -/
abbrev Addr := BitVec 12

end Sys2Proof
end

