-- ==== Sys2Proof/Syntax.lean ====
section
/-! DEFINITION. The instruction set as syntax: the six operand shapes (spec 30 R52), operand tuples
as an assembler writes them (spec 30 R53), and one constructor per row of the opcode table
(spec 30 R55). -/

namespace Sys2Proof

/-- The operand layouts of spec 30 R52; `none` is the shape of 00E0 and 00EE. -/
inductive Shape where
  | none | x | xkk | xy | xyn | nnn
  deriving DecidableEq, Repr

/-- An operand tuple given as plain numbers, before any width check (spec 30 R53 `ops`).
`none` carries the nibble in bits 11 to 8 that CLS and RET ignore (spec 30 R56). -/
inductive Operands where
  | none (ignored : Nat)
  | x (x : Nat)
  | xkk (x kk : Nat)
  | xy (x y : Nat)
  | xyn (x y n : Nat)
  | nnn (nnn : Nat)
  deriving DecidableEq, Repr

/-- The shape of an operand tuple. -/
def Operands.shape : Operands → Shape
  | .none _ => .none
  | .x _ => .x
  | .xkk _ _ => .xkk
  | .xy _ _ => .xy
  | .xyn _ _ _ => .xyn
  | .nnn _ => .nnn

/-- The instruction set: the 34 rows of spec 30 R55, in the table's order. An operand has the width
of its field (spec 30 R52). `cls` and `ret` keep the ignored bits 11 to 8 (spec 30 R56), so that an
instruction determines its opcode. -/
inductive Instr where
  | cls (ignored : Nibble)
  | ret (ignored : Nibble)
  | jpAddr (nnn : Addr)
  | callAddr (nnn : Addr)
  | seVxByte (x : Nibble) (kk : Byte)
  | sneVxByte (x : Nibble) (kk : Byte)
  | seVxVy (x y : Nibble)
  | ldVxByte (x : Nibble) (kk : Byte)
  | addVxByte (x : Nibble) (kk : Byte)
  | ldVxVy (x y : Nibble)
  | orVxVy (x y : Nibble)
  | andVxVy (x y : Nibble)
  | xorVxVy (x y : Nibble)
  | addVxVy (x y : Nibble)
  | subVxVy (x y : Nibble)
  | shrVxVy (x y : Nibble)
  | subnVxVy (x y : Nibble)
  | shlVxVy (x y : Nibble)
  | sneVxVy (x y : Nibble)
  | ldIAddr (nnn : Addr)
  | jpV0Addr (nnn : Addr)
  | rndVxByte (x : Nibble) (kk : Byte)
  | drwVxVyN (x y n : Nibble)
  | skpVx (x : Nibble)
  | sknpVx (x : Nibble)
  | ldVxDt (x : Nibble)
  | ldVxK (x : Nibble)
  | ldDtVx (x : Nibble)
  | ldStVx (x : Nibble)
  | addIVx (x : Nibble)
  | ldFVx (x : Nibble)
  | ldBVx (x : Nibble)
  | ldMemIVx (x : Nibble)
  | ldVxMemI (x : Nibble)
  deriving DecidableEq, Repr

/-- The operand tuple of an instruction, in the order of its shape (spec 30 R52, R55). -/
def Instr.operands : Instr → Operands
  | .cls ig | .ret ig => .none ig.toNat
  | .jpAddr nnn | .callAddr nnn | .ldIAddr nnn | .jpV0Addr nnn => .nnn nnn.toNat
  | .seVxByte x kk | .sneVxByte x kk | .ldVxByte x kk | .addVxByte x kk
  | .rndVxByte x kk => .xkk x.toNat kk.toNat
  | .seVxVy x y | .ldVxVy x y | .orVxVy x y | .andVxVy x y | .xorVxVy x y | .addVxVy x y
  | .subVxVy x y | .shrVxVy x y | .subnVxVy x y | .shlVxVy x y
  | .sneVxVy x y => .xy x.toNat y.toNat
  | .drwVxVyN x y n => .xyn x.toNat y.toNat n.toNat
  | .skpVx x | .sknpVx x | .ldVxDt x | .ldVxK x | .ldDtVx x | .ldStVx x | .addIVx x
  | .ldFVx x | .ldBVx x | .ldMemIVx x | .ldVxMemI x => .x x.toNat

end Sys2Proof
end

