-- ==== Sys2Proof/WellFormed.lean ====
section
/-! DEFINITION. Well-formedness: every operand fits the field its shape gives it (spec 30 R52, R53).
Nothing else is checked, because "operand values are never illegal" (spec 30 R58). -/

namespace Sys2Proof

/-- Every number of the tuple is within its field: `x`, `y`, `n` 4 bits, `kk` 8 bits, `nnn` 12 bits
(spec 30 R52), and the ignored nibble 4 bits (spec 30 R56). -/
def Operands.wellFormed : Operands → Bool
  | .none ig => decide (ig < 16)
  | .x vx => decide (vx < 16)
  | .xkk vx byte => decide (vx < 16) && decide (byte < 256)
  | .xy vx vy => decide (vx < 16) && decide (vy < 16)
  | .xyn vx vy height => decide (vx < 16) && decide (vy < 16) && decide (height < 16)
  | .nnn addr => decide (addr < 4096)

/-- An instruction is well formed when its operand tuple is. Its operands carry their widths in
their types, so every `Instr` is (`Laws.wellFormed_instr`). -/
def Instr.wellFormed (i : Instr) : Bool := i.operands.wellFormed

end Sys2Proof
end

