-- ==== Sys2Proof/Decode.lean ====
section
/-! DEFINITION. The byte order of words, the classifier, the opcode table, the decoder and the
encoder (spec 30 R51 to R57).
The decoder is total: an opcode whose key is in no row is answered by name, and the step runs it as
the no-operation (spec 40 R65). -/

namespace Sys2Proof

/-! ## Byte order (spec 20 R34, R35) -/

/-- The 16-bit word whose bits 15 to 8 are `hi` and bits 7 to 0 are `lo` (spec 20 R34). -/
def wordOfBytes (hi lo : Byte) : Word := hi ++ lo

/-- Bits 15 to 8 of a word. -/
def highByte (w : Word) : Byte := w.extractLsb' 8 8

/-- Bits 7 to 0 of a word. -/
def lowByte (w : Word) : Byte := w.extractLsb' 0 8

/-! ## Operand fields (spec 30 R52) -/

/-- `x = op[11:8]`. -/
def fieldX (op : Word) : Nibble := op.extractLsb' 8 4

/-- `y = op[7:4]`. -/
def fieldY (op : Word) : Nibble := op.extractLsb' 4 4

/-- `n = op[3:0]`. -/
def fieldN (op : Word) : Nibble := op.extractLsb' 0 4

/-- `kk = op[7:0]`. -/
def fieldKK (op : Word) : Byte := op.extractLsb' 0 8

/-- `nnn = op[11:0]`. -/
def fieldNNN (op : Word) : Addr := op.extractLsb' 0 12

/-- `t = op[15:12]`, the major opcode (spec 30 R51). -/
def topNibble (op : Word) : Nibble := op.extractLsb' 12 4

/-! ## Classifier (spec 30 R54) -/

/-- The key of an opcode: the top nibble, with the low byte for top nibbles 0, E, F and the low
nibble for top nibbles 5, 8, 9 (spec 30 R54). -/
def keyOf (op : Word) : Word :=
  let key := op &&& 0xF000#16
  let t := topNibble op
  if t = 0x0#4 ∨ t = 0xE#4 ∨ t = 0xF#4 then key ||| (op &&& 0x00FF#16)
  else if t = 0x5#4 ∨ t = 0x8#4 ∨ t = 0x9#4 then key ||| (op &&& 0x000F#16)
  else key

/-! ## The opcode table (spec 30 R55) -/

/-- One row of the opcode table: `match`, `mask`, the shape, the mnemonic as the spec spells it, and
the instruction the row stands for, built from an opcode's fields. -/
structure Row where
  key : Word
  mask : Word
  shape : Shape
  mnemonic : String
  build : Word → Instr

/-- Rows with top nibbles 0 to 4 (spec 30 R55 rows 1 to 6). -/
def rowsControl : List Row :=
  [ ⟨0x00E0#16, 0xF0FF#16, .none, "CLS", fun op => .cls (fieldX op)⟩,
    ⟨0x00EE#16, 0xF0FF#16, .none, "RET", fun op => .ret (fieldX op)⟩,
    ⟨0x1000#16, 0xF000#16, .nnn, "JP addr", fun op => .jpAddr (fieldNNN op)⟩,
    ⟨0x2000#16, 0xF000#16, .nnn, "CALL addr", fun op => .callAddr (fieldNNN op)⟩,
    ⟨0x3000#16, 0xF000#16, .xkk, "SE Vx,byte", fun op => .seVxByte (fieldX op) (fieldKK op)⟩,
    ⟨0x4000#16, 0xF000#16, .xkk, "SNE Vx,byte", fun op => .sneVxByte (fieldX op) (fieldKK op)⟩ ]

/-- Rows with top nibbles 5 to 7 (spec 30 R55 rows 7 to 9). -/
def rowsByte : List Row :=
  [ ⟨0x5000#16, 0xF00F#16, .xy, "SE Vx,Vy", fun op => .seVxVy (fieldX op) (fieldY op)⟩,
    ⟨0x6000#16, 0xF000#16, .xkk, "LD Vx,byte", fun op => .ldVxByte (fieldX op) (fieldKK op)⟩,
    ⟨0x7000#16, 0xF000#16, .xkk, "ADD Vx,byte", fun op => .addVxByte (fieldX op) (fieldKK op)⟩ ]

/-- Rows with top nibble 8 (spec 30 R55 rows 10 to 18). -/
def rowsAlu : List Row :=
  [ ⟨0x8000#16, 0xF00F#16, .xy, "LD Vx,Vy", fun op => .ldVxVy (fieldX op) (fieldY op)⟩,
    ⟨0x8001#16, 0xF00F#16, .xy, "OR", fun op => .orVxVy (fieldX op) (fieldY op)⟩,
    ⟨0x8002#16, 0xF00F#16, .xy, "AND", fun op => .andVxVy (fieldX op) (fieldY op)⟩,
    ⟨0x8003#16, 0xF00F#16, .xy, "XOR", fun op => .xorVxVy (fieldX op) (fieldY op)⟩,
    ⟨0x8004#16, 0xF00F#16, .xy, "ADD Vx,Vy", fun op => .addVxVy (fieldX op) (fieldY op)⟩,
    ⟨0x8005#16, 0xF00F#16, .xy, "SUB Vx,Vy", fun op => .subVxVy (fieldX op) (fieldY op)⟩,
    ⟨0x8006#16, 0xF00F#16, .xy, "SHR", fun op => .shrVxVy (fieldX op) (fieldY op)⟩,
    ⟨0x8007#16, 0xF00F#16, .xy, "SUBN", fun op => .subnVxVy (fieldX op) (fieldY op)⟩,
    ⟨0x800E#16, 0xF00F#16, .xy, "SHL", fun op => .shlVxVy (fieldX op) (fieldY op)⟩ ]

/-- Rows with top nibbles 9 to E (spec 30 R55 rows 19 to 25). -/
def rowsIndex : List Row :=
  [ ⟨0x9000#16, 0xF00F#16, .xy, "SNE Vx,Vy", fun op => .sneVxVy (fieldX op) (fieldY op)⟩,
    ⟨0xA000#16, 0xF000#16, .nnn, "LD I,addr", fun op => .ldIAddr (fieldNNN op)⟩,
    ⟨0xB000#16, 0xF000#16, .nnn, "JP V0,addr", fun op => .jpV0Addr (fieldNNN op)⟩,
    ⟨0xC000#16, 0xF000#16, .xkk, "RND Vx,byte", fun op => .rndVxByte (fieldX op) (fieldKK op)⟩,
    ⟨0xD000#16, 0xF000#16, .xyn, "DRW Vx,Vy,n",
      fun op => .drwVxVyN (fieldX op) (fieldY op) (fieldN op)⟩,
    ⟨0xE09E#16, 0xF0FF#16, .x, "SKP Vx", fun op => .skpVx (fieldX op)⟩,
    ⟨0xE0A1#16, 0xF0FF#16, .x, "SKNP Vx", fun op => .sknpVx (fieldX op)⟩ ]

/-- Rows with top nibble F (spec 30 R55 rows 26 to 34). -/
def rowsSystem : List Row :=
  [ ⟨0xF007#16, 0xF0FF#16, .x, "LD Vx,DT", fun op => .ldVxDt (fieldX op)⟩,
    ⟨0xF00A#16, 0xF0FF#16, .x, "LD Vx,K", fun op => .ldVxK (fieldX op)⟩,
    ⟨0xF015#16, 0xF0FF#16, .x, "LD DT,Vx", fun op => .ldDtVx (fieldX op)⟩,
    ⟨0xF018#16, 0xF0FF#16, .x, "LD ST,Vx", fun op => .ldStVx (fieldX op)⟩,
    ⟨0xF01E#16, 0xF0FF#16, .x, "ADD I,Vx", fun op => .addIVx (fieldX op)⟩,
    ⟨0xF029#16, 0xF0FF#16, .x, "LD F,Vx", fun op => .ldFVx (fieldX op)⟩,
    ⟨0xF033#16, 0xF0FF#16, .x, "LD B,Vx", fun op => .ldBVx (fieldX op)⟩,
    ⟨0xF055#16, 0xF0FF#16, .x, "LD [I],Vx", fun op => .ldMemIVx (fieldX op)⟩,
    ⟨0xF065#16, 0xF0FF#16, .x, "LD Vx,[I]", fun op => .ldVxMemI (fieldX op)⟩ ]

/-- The 34 rows of spec 30 R55, in the table's order. -/
def opcodeTable : List Row := rowsControl ++ rowsByte ++ rowsAlu ++ rowsIndex ++ rowsSystem

/-! ## Decoder -/

/-- Why no instruction was read. -/
inductive DecodeReject where
  /-- The key is in no row: the opcode is unassigned, and the step runs it as the no-operation
  (spec 30 R57, 40 R65). -/
  | unassigned (key : Word)
  /-- Fewer than two bytes were given; no fetch of the machine does that (spec 30 R51). -/
  | truncated
  deriving DecidableEq, Repr

/-- The instruction of an opcode: that of the row whose key is the opcode's (spec 30 R54, R55). -/
def decode (op : Word) : Except DecodeReject Instr :=
  match opcodeTable.find? (fun r => r.key == keyOf op) with
  | some r => .ok (r.build op)
  | none => .error (.unassigned (keyOf op))

/-- The first instruction of a byte sequence and the bytes after it. An instruction is two bytes,
the high byte first (spec 30 R51, 20 R34). -/
def decodeBytes : List Byte → Except DecodeReject (Instr × List Byte)
  | hi :: lo :: rest =>
    match decode (wordOfBytes hi lo) with
    | .ok i => .ok (i, rest)
    | .error e => .error e
  | _ => .error .truncated

/-- The operands a shape extracts from an opcode (spec 30 R52). -/
def decodeOperands (op : Word) : Shape → Operands
  | .none => .none (fieldX op).toNat
  | .x => .x (fieldX op).toNat
  | .xkk => .xkk (fieldX op).toNat (fieldKK op).toNat
  | .xy => .xy (fieldX op).toNat (fieldY op).toNat
  | .xyn => .xyn (fieldX op).toNat (fieldY op).toNat (fieldN op).toNat
  | .nnn => .nnn (fieldNNN op).toNat

/-! ## Encoder (spec 30 R53) -/

/-- A number placed with its bit 0 at bit `lo` of an opcode. -/
def placeAt (v lo : Nat) : Word := BitVec.ofNat 16 v <<< lo

/-- The operands placed in the bits spec 30 R52 names. -/
def encodeOperands : Operands → Word
  | .none ig => placeAt ig 8
  | .x x => placeAt x 8
  | .xkk x kk => placeAt x 8 ||| placeAt kk 0
  | .xy x y => placeAt x 8 ||| placeAt y 4
  | .xyn x y n => placeAt x 8 ||| placeAt y 4 ||| placeAt n 0
  | .nnn nnn => placeAt nnn 0

/-- The fixed bits of an instruction's pattern, the `match` column of spec 30 R55. -/
def Instr.fixedBits : Instr → Word
  | .cls _ => 0x00E0#16
  | .ret _ => 0x00EE#16
  | .jpAddr _ => 0x1000#16
  | .callAddr _ => 0x2000#16
  | .seVxByte _ _ => 0x3000#16
  | .sneVxByte _ _ => 0x4000#16
  | .seVxVy _ _ => 0x5000#16
  | .ldVxByte _ _ => 0x6000#16
  | .addVxByte _ _ => 0x7000#16
  | .ldVxVy _ _ => 0x8000#16
  | .orVxVy _ _ => 0x8001#16
  | .andVxVy _ _ => 0x8002#16
  | .xorVxVy _ _ => 0x8003#16
  | .addVxVy _ _ => 0x8004#16
  | .subVxVy _ _ => 0x8005#16
  | .shrVxVy _ _ => 0x8006#16
  | .subnVxVy _ _ => 0x8007#16
  | .shlVxVy _ _ => 0x800E#16
  | .sneVxVy _ _ => 0x9000#16
  | .ldIAddr _ => 0xA000#16
  | .jpV0Addr _ => 0xB000#16
  | .rndVxByte _ _ => 0xC000#16
  | .drwVxVyN _ _ _ => 0xD000#16
  | .skpVx _ => 0xE09E#16
  | .sknpVx _ => 0xE0A1#16
  | .ldVxDt _ => 0xF007#16
  | .ldVxK _ => 0xF00A#16
  | .ldDtVx _ => 0xF015#16
  | .ldStVx _ => 0xF018#16
  | .addIVx _ => 0xF01E#16
  | .ldFVx _ => 0xF029#16
  | .ldBVx _ => 0xF033#16
  | .ldMemIVx _ => 0xF055#16
  | .ldVxMemI _ => 0xF065#16

/-- The opcode of an instruction: its operands in their fields and its fixed bits (spec 30 R53). -/
def encode (i : Instr) : Word := i.fixedBits ||| encodeOperands i.operands

/-- An opcode as it lies in memory: high byte at the lower address (spec 20 R35). -/
def bytesOfWord (w : Word) : List Byte := [highByte w, lowByte w]

/-- The bytes of an instruction in memory order. -/
def encodeBytes (i : Instr) : List Byte := bytesOfWord (encode i)

/-- The 16-bit opcode that a table word of `nbits` bits stands for: the bits above `nbits` are 0. -/
def tableWord (nbits w : Nat) : Word := BitVec.ofNat 16 (w % 2 ^ nbits)

/-- The instruction the decoder reads from the two bytes of a table word (bit 0 of `w` is bit 0 of
the opcode), laid out big-endian. -/
def decodeTableWord (nbits w : Nat) : Option Instr :=
  match decodeBytes (bytesOfWord (tableWord nbits w)) with
  | .ok (i, _) => some i
  | .error _ => none

end Sys2Proof
end

