-- ==== Sys2Proof/Config.lean ====
section
/-! DEFINITION. What an implementation fixes: the parameters of spec 00 section 4 that stand as
constants, and the one free value, the byte the random generator yields (spec 42 R91, 92 D11). -/

namespace Sys2Proof

/-- `PROG_BASE`: programs are loaded here and `PC` starts here (spec 20 R37, 10 R12). -/
def Config.progBase : Word := 0x200#16

/-- One 60 Hz period in thirds of a millisecond: 1000/60 ms = 50/3 ms (spec 60 R128, D7). -/
def Config.tickPeriod3 : Nat := 50

/-- FREE VALUE. The byte that the generator seeded with `seed` yields at its draw number `draw`
(from 0). The spec fixes no algorithm and no law, "not even uniformity" (spec 92 D11, 42 R91):
it has no body, so nothing can be proved about its value. Log entry 4. -/
opaque Config.randByte (seed draw : Nat) : Byte

end Sys2Proof
end

