-- ==== Sys2Proof/Machine/State.lean ====
section
/-! DEFINITION. The machine's state as plain data: the thirteen items of spec 10 section 1, under
the spec's names, and the two fields of the model that hold what the host agent does next
(log entry 1). -/

namespace Sys2Proof.Machine

/-- The 4096-byte memory (spec 10 R19, 20 R30) as its differences from the power-on contents:
addresses strictly rising, no entry equal to what an unlisted address reads as (`Memory.wf`). -/
abbrev Memory := List Host.Cell

/-- The framebuffer: 2048 one-bit pixels "in row-major order, index 64 * y + x" (spec 10 R20,
60 R135): bit `64 * y + x` is the pixel at column `x` (0 to 63) and row `y` (0 to 31), 1 is lit. -/
abbrev Framebuffer := BitVec 2048

/-- The suspension state (spec 10 R23). -/
inductive Wait where
  | running
  | awaitingKey (x : Nibble)
  deriving DecidableEq, Repr

/-- The random generator's state (spec 10 R18, 92 D11, log entry 4): its seed and how many bytes it
has yielded; the bytes themselves are the free values `Config.randByte seed draw`. -/
structure RngState where
  seed : Nat
  draws : Nat
  deriving DecidableEq, Repr

/-- The `endian` argument of `store_words` (spec 20 R38). -/
inductive Endian where
  | big
  | little
  deriving DecidableEq, Repr

/-- The host's transactions that act on the core (spec 60 R137); each is atomic and happens between
steps. The reads `load_byte`, `load_word`, `pixel` and `observe` change nothing and are functions of
the state. -/
inductive Transaction where
  | powerOn (seed : Nat)
  | reset
  | step (nowMs : Nat)
  | setKey (k : Nibble) (pressed : Bool)
  | storeByte (addr : Nat) (b : Byte)
  | storeBytes (addr : Nat) (bytes : List Byte)
  | storeWords (addr : Nat) (words : List Word) (endian : Endian)
  deriving DecidableEq, Repr

/-- The whole state. Fields `V` to `anchor3` are the thirteen items of spec 10 section 1. -/
structure State where
  /-- `V[0..15]` (spec 10 R10, R11). -/
  V : Vector Byte 16
  /-- Program counter, 16 bits, never masked to 12 (spec 10 R12). -/
  PC : Word
  /-- Address register, upper four bits always zero (spec 10 R13, `State.Inv`). -/
  I : Word
  /-- Stack pointer, 0 to 16 inclusive, the number of return addresses held (spec 10 R14). -/
  SP : Fin 17
  /-- Return addresses (spec 10 R15). -/
  stack : Vector Word 16
  /-- Delay timer (spec 10 R16). -/
  DT : Byte
  /-- Sound timer (spec 10 R17). -/
  ST : Byte
  /-- Random generator (spec 10 R18). -/
  rng : RngState
  /-- Memory (spec 10 R19). -/
  mem : Memory
  /-- Framebuffer (spec 10 R20). -/
  fb : Framebuffer
  /-- Keyboard latch, `true` is pressed (spec 10 R22). -/
  key : Vector Bool 16
  /-- Suspension state (spec 10 R23). -/
  wait : Wait
  /-- The timer unit's anchor, in thirds of a millisecond (spec 10 R24). -/
  anchor3 : Nat
  /-- MODEL'S OWN: the time the host last presented, the `now_ms` of a step (log entry 1). -/
  nowMs : Nat
  /-- MODEL'S OWN: the host's transactions that have yet to happen, next first (log entry 1). -/
  pending : List Transaction
  deriving DecidableEq, Repr

/-- The reasons a step can stop with a fault: none. "The interpreter has no error returns"
(spec 60 R120, R121), so no constructor exists and nothing can raise one. -/
inductive Fault where
  deriving DecidableEq, Repr

/-- The reasons a step can be refused. -/
inductive Refusal where
  /-- An instruction whose arm in `exec` has no meaning yet. No arm raises it: all 34 rows have
  their meaning. Safe: the model would stop where the hardware goes on. -/
  | notModelled (mnemonic : String)
  deriving DecidableEq, Repr

/-- What `observe()` returns: the eight items of spec 60 R137, and `rng` and `anchor3`, so that the
port reads all of the hidden state (spec 10 R27, log entry 24). -/
structure Observation where
  V : Vector Byte 16
  I : Word
  PC : Word
  SP : Byte
  stack : Vector Word 16
  DT : Byte
  ST : Byte
  wait : Wait
  rng : RngState
  anchor3 : Nat
  deriving DecidableEq, Repr

/-- The machine after power-on (spec 70 R140): no piece of state is left unspecified. The font and
the zeros of memory are what unlisted addresses read as (`Memory.background`). Log entries 2, 3, 4,
10, 13; `nowMs` and `pending` are the model's own (log entry 1). -/
def State.reset : State where
  V := Vector.replicate 16 0#8
  PC := Config.progBase
  I := 0#16
  SP := 0
  stack := Vector.replicate 16 0#16
  DT := 0#8
  ST := 0#8
  rng := { seed := 0, draws := 0 }
  mem := []
  fb := 0#2048
  key := Vector.replicate 16 false
  wait := .running
  anchor3 := 0
  nowMs := 0
  pending := []

end Sys2Proof.Machine
end

