-- ==== Sys2Proof/Machine/Memory.lean ====
section
/-! DEFINITION. Memory (spec 20): the power-on contents, the canonical form, and the byte, word and
bulk operations. An address is a natural number; every operation reduces each byte address modulo
4096 (spec 20 R31). -/

namespace Sys2Proof.Machine

/-! ## Power-on contents (spec 20 R40) -/

/-- Glyphs 0 to 7 of the font, five bytes each (spec 20 R40). -/
def fontLow : List Byte :=
  [0xF0#8, 0x90#8, 0x90#8, 0x90#8, 0xF0#8] ++
  [0x20#8, 0x60#8, 0x20#8, 0x20#8, 0x70#8] ++
  [0xF0#8, 0x10#8, 0xF0#8, 0x80#8, 0xF0#8] ++
  [0xF0#8, 0x10#8, 0xF0#8, 0x10#8, 0xF0#8] ++
  [0x90#8, 0x90#8, 0xF0#8, 0x10#8, 0x10#8] ++
  [0xF0#8, 0x80#8, 0xF0#8, 0x10#8, 0xF0#8] ++
  [0xF0#8, 0x80#8, 0xF0#8, 0x90#8, 0xF0#8] ++
  [0xF0#8, 0x10#8, 0x20#8, 0x40#8, 0x40#8]

/-- Glyphs 8 to F of the font (spec 20 R40). -/
def fontHigh : List Byte :=
  [0xF0#8, 0x90#8, 0xF0#8, 0x90#8, 0xF0#8] ++
  [0xF0#8, 0x90#8, 0xF0#8, 0x10#8, 0xF0#8] ++
  [0xF0#8, 0x90#8, 0xF0#8, 0x90#8, 0x90#8] ++
  [0xE0#8, 0x90#8, 0xE0#8, 0x90#8, 0xE0#8] ++
  [0xF0#8, 0x80#8, 0x80#8, 0x80#8, 0xF0#8] ++
  [0xE0#8, 0x90#8, 0x90#8, 0x90#8, 0xE0#8] ++
  [0xF0#8, 0x80#8, 0xF0#8, 0x80#8, 0xF0#8] ++
  [0xF0#8, 0x80#8, 0xF0#8, 0x80#8, 0x80#8]

/-- The 80 font bytes at 0x000 to 0x04F (spec 20 R40). -/
def fontBytes : List Byte := fontLow ++ fontHigh

/-- What an address reads as that nothing has written: the power-on contents, the font and zero
elsewhere (spec 70 R140; the spec's D14 and D15, log entries 3 and 23). -/
def Memory.background (a : Nat) : Byte := fontBytes.getD a 0#8

/-! ## Canonical form -/

/-- Addresses strictly rising and below 4096, and no entry equal to the power-on contents. -/
abbrev Memory.wf (m : Memory) : Prop :=
  m.Pairwise (fun p q => p.1 < q.1) ∧ ∀ c ∈ m, c.1 < 4096 ∧ c.2 ≠ Memory.background c.1

/-- The listed byte at an address. -/
def Memory.lookup : Memory → Nat → Option Byte
  | [], _ => none
  | (k, v) :: rest, a => if a = k then some v else Memory.lookup rest a

/-- The listing without any entry at `a`. -/
def Memory.erase (m : Memory) (a : Nat) : Memory := m.filter (fun c => c.1 != a)

/-- Insert an entry before the first larger address. -/
def Memory.place : Memory → Nat → Byte → Memory
  | [], a, b => [(a, b)]
  | (k, v) :: rest, a, b =>
    if a < k then (a, b) :: (k, v) :: rest else (k, v) :: Memory.place rest a b

/-- Make address `a` hold `b`: no entry where `b` is the power-on contents, so the canonical form is
kept (`Laws.insert_wf`). -/
def Memory.insert (m : Memory) (a : Nat) (b : Byte) : Memory :=
  if b = Memory.background a then m.erase a else (m.erase a).place a b

/-! ## Accesses -/

/-- The address an access touches: `a & 0xFFF` (spec 20 R31). -/
def Memory.wrap (a : Nat) : Nat := a % 4096

/-- `MemRead(a, 1)` (spec 20 R32). -/
def Memory.read (m : Memory) (a : Nat) : Byte :=
  (m.lookup (Memory.wrap a)).getD (Memory.background (Memory.wrap a))

/-- `MemWrite(a, 1, b)` (spec 20 R33). -/
def Memory.write (m : Memory) (a : Nat) (b : Byte) : Memory := m.insert (Memory.wrap a) b

/-- `MemRead(a, 2)`: big-endian, each byte address wrapped on its own (spec 20 R34). -/
def Memory.readWord (m : Memory) (a : Nat) : Word := wordOfBytes (m.read a) (m.read (a + 1))

/-- `store_bytes(a, bytes)`: byte `i` goes to `a + i`, each address wrapped (spec 20 R36). -/
def Memory.writeBytes : Memory → Nat → List Byte → Memory
  | m, _, [] => m
  | m, a, b :: rest => Memory.writeBytes (m.write a b) (a + 1) rest

/-- The bytes of a word in the order `store_words` lays them out (spec 20 R35, R38). -/
def wordBytes : Endian → Word → List Byte
  | .big, w => [highByte w, lowByte w]
  | .little, w => [lowByte w, highByte w]

/-- `store_words(a, words, endian)`: word `i` goes to `a + 2*i` (spec 20 R38, log entry 22). -/
def Memory.writeWords : Memory → Nat → List Word → Endian → Memory
  | m, _, [], _ => m
  | m, a, w :: rest, e => Memory.writeWords (m.writeBytes a (wordBytes e w)) (a + 2) rest e

end Sys2Proof.Machine
end

