-- ==== Sys2Proof/Machine/Ops.lean ====
section
/-! DEFINITION. The named operations over registers, memory, framebuffer and generator that the
meanings share. The machine has no exception, so there is no operation that takes one and none that
returns from one (spec 60 R120, R124, R125, log entry 19). -/

namespace Sys2Proof.Machine

/-! ## Registers -/

/-- `V[x]` (spec 10 R10). -/
def State.readV (s : State) (x : Nibble) : Byte := s.V[x.toNat]'x.isLt

/-- `V[x] <- b` (spec 10 R10). No register is hardwired. -/
def State.writeV (s : State) (x : Nibble) (b : Byte) : State :=
  { s with V := s.V.set x.toNat b x.isLt }

/-- `PC <- target` (spec 10 R12). -/
def State.setPC (s : State) (target : Word) : State := { s with PC := target }

/-- `PC <- (PC + 2) mod 2^16`: the fetch's increment and a taken skip (spec 40 R63, log entry 5). -/
def State.advancePC (s : State) : State := s.setPC (s.PC + 2#16)

/-- `I <- w` (spec 10 R13). -/
def State.setI (s : State) (w : Word) : State := { s with I := w }

/-- A number reduced to the 12 significant bits of `I`: `n & 0xFFF` (spec 10 R13, 43 R96). -/
def maskI (n : Nat) : Word := BitVec.ofNat 16 (n % 4096)

/-- `DT <- b` (spec 10 R16). -/
def State.setDT (s : State) (b : Byte) : State := { s with DT := b }

/-- `ST <- b` (spec 10 R17). -/
def State.setST (s : State) (b : Byte) : State := { s with ST := b }

/-- `wait <- w` (spec 10 R23). -/
def State.setWait (s : State) (w : Wait) : State := { s with wait := w }

/-- The generator's state becomes `r` (spec 10 R18). -/
def State.setRng (s : State) (r : RngState) : State := { s with rng := r }

/-- The framebuffer becomes `fb` (spec 10 R20). -/
def State.setFB (s : State) (fb : Framebuffer) : State := { s with fb := fb }

/-! ## Return stack (spec 10 R14, R15) -/

/-- Push a return address; at `SP` = 16 the push is dropped (spec 41 R72). -/
def State.push (s : State) (ret : Word) : State :=
  if h : s.SP.val < 16 then
    { s with stack := s.stack.set s.SP.val ret h, SP := ⟨s.SP.val + 1, by omega⟩ }
  else s

/-- Pop the most recent return address into `PC`; at `SP` = 0 nothing happens (spec 41 R70). The
popped entry keeps its value in `stack` (spec 10 R15). -/
def State.popPC (s : State) : State :=
  if h : 0 < s.SP.val then
    { s with PC := s.stack[s.SP.val - 1]'(by omega), SP := ⟨s.SP.val - 1, by omega⟩ }
  else s

/-! ## Memory -/

/-- `MemRead(a, 1)` (spec 20 R32). -/
def State.loadByte (s : State) (a : Nat) : Byte := s.mem.read a

/-- `MemRead(a, 2)` (spec 20 R34). -/
def State.loadWord (s : State) (a : Nat) : Word := s.mem.readWord a

/-- `MemWrite(a, 1, b)` (spec 20 R33). -/
def State.storeByte (s : State) (a : Nat) (b : Byte) : State := { s with mem := s.mem.write a b }

/-- `MemWrite(a + k, 1, V[k])` for `k` from 0 to `n - 1`, ascending (spec 43 R99). -/
def State.storeV (s : State) (a : Nat) : Nat → State
  | 0 => s
  | n + 1 => (s.storeV a n).storeByte (a + n) (s.readV (BitVec.ofNat 4 n))

/-- `V[k] <- MemRead(a + k, 1)` for `k` from 0 to `n - 1`, ascending (spec 43 R100). -/
def State.loadV (s : State) (a : Nat) : Nat → State
  | 0 => s
  | n + 1 => (s.loadV a n).writeV (BitVec.ofNat 4 n) (s.loadByte (a + n))

/-! ## Framebuffer (spec 10 R20) -/

/-- The linear row-major index of a pixel, `64 * y + x`, "coordinates are taken modulo the
dimensions" (spec 10 R20). -/
def pixelIndex (x y : Nat) : Nat := 64 * (y % 32) + x % 64

/-- The pixel at a column and a row (spec 10 R20). -/
def Framebuffer.pixel (fb : Framebuffer) (x y : Nat) : Bool := fb.getLsbD (pixelIndex x y)

/-- Write one pixel (spec 10 R20). -/
def Framebuffer.setPixel (fb : Framebuffer) (x y : Nat) (b : Bool) : Framebuffer :=
  if b then fb ||| (1#2048 <<< pixelIndex x y) else fb &&& ~~~(1#2048 <<< pixelIndex x y)

/-- Every pixel unlit (spec 44 R105). -/
def Framebuffer.blank : Framebuffer := 0#2048

/-- A framebuffer being drawn on, and whether a lit pixel has been cleared so far
(`fb` and `hit` of spec 44 R106). -/
abbrev Canvas := Framebuffer × Bool

/-- XOR one sprite bit onto the pixel at a column and a row (inner body of spec 44 R106). -/
def Canvas.xorPixel (c : Canvas) (px py : Nat) (sprite : Bool) : Canvas :=
  let old := c.1.pixel px py
  (c.1.setPixel px py (old ^^ sprite), c.2 || (old && sprite))

/-- The first `cols` columns of one sprite row, bit 7 leftmost (inner loop of spec 44 R106). -/
def Canvas.xorRow (c : Canvas) (vx py : Nat) (b : Byte) : Nat → Canvas
  | 0 => c
  | col + 1 => (c.xorRow vx py b col).xorPixel (vx + col) py (b.getLsbD (7 - col))

/-- The first `n` rows of a sprite (outer loop of spec 44 R106): row `row` is the memory byte at
`base + row`. -/
def Canvas.xorRows (c : Canvas) (m : Memory) (base vx vy : Nat) : Nat → Canvas
  | 0 => c
  | row + 1 =>
    (c.xorRows m base vx vy row).xorRow vx (vy + row) (m.read (base + row)) 8

/-! ## Random generator (spec 42 R91, log entry 4) -/

/-- `rand_step`: the next byte and the generator's state after it. -/
def randStep (r : RngState) : Byte × RngState :=
  (Config.randByte r.seed r.draws, { r with draws := r.draws + 1 })

/-! ## Keyboard latch (spec 10 R22) -/

/-- `is_pressed(k)`: level, not edge. -/
def State.isPressed (s : State) (k : Nibble) : Bool := s.key[k.toNat]'k.isLt

end Sys2Proof.Machine
end

