-- ==== Sys2Proof/Machine/Operands.lean ====
section
/-! DEFINITION. The operand forms of the 34 rows (spec 30 R59 names them): `Vx`, `Vy`, `V0`, `VF`
registers, `[I]` plus an offset, `F` the font glyph, `B` the decimal digits, the key that `V[x]`
names, the sprite's origin, and `K` the key pressed. Immediates (`byte`, `addr`, `n`) are the
instruction's own fields. -/

namespace Sys2Proof.Machine

/-- The index of VF, the flag register (spec 10 R11). -/
def vf : Nibble := 0xF#4

/-- The index of V0, the register BNNN adds (spec 41 R77). -/
def v0 : Nibble := 0x0#4

/-- The effective address `I + k`; memory wraps it (spec 43 common facts). -/
def State.indexed (s : State) (k : Nat) : Nat := s.I.toNat + k

/-- `F`: the address of the font glyph of a register's low four bits, `5 * (v & 0xF)`
(spec 43 R97). -/
def glyphAddress (v : Byte) : Word := BitVec.ofNat 16 (5 * (v.toNat % 16))

/-- `B`, the hundreds digit: `v div 100` (spec 43 R98). -/
def hundreds (v : Byte) : Byte := BitVec.ofNat 8 (v.toNat / 100)

/-- `B`, the tens digit: `(v div 10) mod 10` (spec 43 R98). -/
def tens (v : Byte) : Byte := BitVec.ofNat 8 (v.toNat / 10 % 10)

/-- `B`, the ones digit: `v mod 10` (spec 43 R98). -/
def ones (v : Byte) : Byte := BitVec.ofNat 8 (v.toNat % 10)

/-- The key code a register names: its low four bits (spec 45 R110). -/
def keyIndex (v : Byte) : Nibble := v.extractLsb' 0 4

/-- A 12-bit address field as a 16-bit value, zero-extended (spec 30 R52). -/
def zextAddr (nnn : Addr) : Word := nnn.setWidth 16

/-- A byte as a 16-bit value, zero-extended (spec 41 R77). -/
def zextByte (b : Byte) : Word := b.setWidth 16

/-- `K`: the lowest pressed key code from `k` upwards, looking at `fuel` codes
(the search of spec 40 R61). -/
def State.firstKeyFrom (s : State) (k : Nat) : Nat → Option Nibble
  | 0 => none
  | fuel + 1 =>
    if s.isPressed (BitVec.ofNat 4 k) then some (BitVec.ofNat 4 k)
    else s.firstKeyFrom (k + 1) fuel

/-- `K`: the lowest pressed key code of 0 to 15, if any key is pressed (spec 40 R61). -/
def State.lowestKey (s : State) : Option Nibble := s.firstKeyFrom 0 16

end Sys2Proof.Machine
end

