-- ==== Sys2Proof/Machine/Flags.lean ====
section
/-! DEFINITION. Every flag the machine computes, as the value VF receives (spec 10 R11: always 0 or
1), and the shared shape of the instructions that write a flag and a result. -/

namespace Sys2Proof.Machine

/-- The value VF receives for a condition: 1 or 0 (spec 10 R11). -/
def flag (b : Bool) : Byte := if b then 1#8 else 0#8

/-- Carry out of bit 7 of `a + b`: the 9-bit sum is above 0xFF (spec 42 R86). -/
def carryOut (a b : Byte) : Bool := decide (a.toNat + b.toNat > 0xFF)

/-- The minuend is strictly greater than the subtrahend (spec 42 R87, R89, R92). -/
def strictlyGreater (a b : Byte) : Bool := decide (a.toNat > b.toNat)

/-- The bit a right shift by one moves out (spec 42 R88). -/
def bitOutRight (b : Byte) : Bool := b.getLsbD 0

/-- The bit a left shift by one moves out (spec 42 R90). -/
def bitOutLeft (b : Byte) : Bool := b.getLsbD 7

/-- Write the flag, then the result: with `x` = 0xF the result stays (spec 10 R11; the operands were
read before, log entry 6). -/
def State.writeFlagThenV (s : State) (f : Bool) (x : Nibble) (r : Byte) : State :=
  (s.writeV vf (flag f)).writeV x r

end Sys2Proof.Machine
end

