-- ==== Sys2Proof/Machine/ControlFlow.lean ====
section
/-! DEFINITION. Control transfer (spec 41 R70 to R77). In every meaning `PC` already holds
`pc0 + 2` (spec 40 R63). -/

namespace Sys2Proof.Machine

/-- The shared skip: step over one instruction when the condition holds, `PC + 2 mod 2^16`
(spec 41 R73). -/
def State.skipIf (s : State) (c : Bool) : State := if c then s.advancePC else s

/-- 00EE RET (spec 41 R70). -/
def execRet (_ignored : Nibble) (s : State) : Host.Outcome State Fault Refusal := .next s.popPC

/-- 1NNN JP addr (spec 41 R71). -/
def execJpAddr (nnn : Addr) (s : State) : Host.Outcome State Fault Refusal :=
  .next (s.setPC (zextAddr nnn))

/-- 2NNN CALL addr: push `PC`, then jump; with a full stack only the push is dropped
(spec 41 R72, log entry 7). -/
def execCallAddr (nnn : Addr) (s : State) : Host.Outcome State Fault Refusal :=
  .next ((s.push s.PC).setPC (zextAddr nnn))

/-- 3XKK SE Vx,byte (spec 41 R73). -/
def execSeVxByte (x : Nibble) (kk : Byte) (s : State) : Host.Outcome State Fault Refusal :=
  .next (s.skipIf (s.readV x == kk))

/-- 4XKK SNE Vx,byte (spec 41 R74). -/
def execSneVxByte (x : Nibble) (kk : Byte) (s : State) : Host.Outcome State Fault Refusal :=
  .next (s.skipIf (s.readV x != kk))

/-- 5XY0 SE Vx,Vy (spec 41 R75). -/
def execSeVxVy (x y : Nibble) (s : State) : Host.Outcome State Fault Refusal :=
  .next (s.skipIf (s.readV x == s.readV y))

/-- 9XY0 SNE Vx,Vy (spec 41 R76). -/
def execSneVxVy (x y : Nibble) (s : State) : Host.Outcome State Fault Refusal :=
  .next (s.skipIf (s.readV x != s.readV y))

/-- BNNN JP V0,addr: the sum is not masked to 12 bits (spec 41 R77). -/
def execJpV0Addr (nnn : Addr) (s : State) : Host.Outcome State Fault Refusal :=
  .next (s.setPC (zextAddr nnn + zextByte (s.readV v0)))

end Sys2Proof.Machine
end

