-- ==== Sys2Proof/Machine/Display.lean ====
section
/-! DEFINITION. Display instructions (spec 44 R105, R106). -/

namespace Sys2Proof.Machine

/-- 00E0 CLS (spec 44 R105). -/
def execCls (_ignored : Nibble) (s : State) : Host.Outcome State Fault Refusal :=
  .next (s.setFB Framebuffer.blank)

/-- The sprite of DXYN drawn on the state's framebuffer: `n` rows from `I`, with its top left
corner at column `V[x]` and row `V[y]`, and whether a lit pixel was cleared (spec 44 R106). -/
def State.drawSprite (s : State) (x y n : Nibble) : Canvas :=
  Canvas.xorRows (s.fb, false) s.mem (s.indexed 0) (s.readV x).toNat (s.readV y).toNat n.toNat

/-- DXYN DRW Vx,Vy,n: XOR the sprite, then write the collision to VF (spec 44 R106). -/
def execDrwVxVyN (x y n : Nibble) (s : State) : Host.Outcome State Fault Refusal :=
  .next ((s.setFB (s.drawSprite x y n).1).writeV vf (flag (s.drawSprite x y n).2))

end Sys2Proof.Machine
end

