-- ==== Sys2Proof/Machine/IndexMemory.lean ====
section
/-! DEFINITION. Index register and memory instructions (spec 43 R95 to R100). -/

namespace Sys2Proof.Machine

/-- ANNN LD I,addr (spec 43 R95). -/
def execLdIAddr (nnn : Addr) (s : State) : Host.Outcome State Fault Refusal :=
  .next (s.setI (zextAddr nnn))

/-- FX1E ADD I,Vx: modulo 4096, VF kept (spec 43 R96). -/
def execAddIVx (x : Nibble) (s : State) : Host.Outcome State Fault Refusal :=
  .next (s.setI (maskI (s.I.toNat + (s.readV x).toNat)))

/-- FX29 LD F,Vx (spec 43 R97). -/
def execLdFVx (x : Nibble) (s : State) : Host.Outcome State Fault Refusal :=
  .next (s.setI (glyphAddress (s.readV x)))

/-- FX33 LD B,Vx: hundreds, tens, ones at rising addresses, `I` kept (spec 43 R98). -/
def execLdBVx (x : Nibble) (s : State) : Host.Outcome State Fault Refusal :=
  .next (((s.storeByte (s.indexed 0) (hundreds (s.readV x))).storeByte (s.indexed 1)
    (tens (s.readV x))).storeByte (s.indexed 2) (ones (s.readV x)))

/-- FX55 LD [I],Vx: store V0 to Vx, then `I` past the last byte (spec 43 R99, log entry 8). -/
def execLdMemIVx (x : Nibble) (s : State) : Host.Outcome State Fault Refusal :=
  .next ((s.storeV (s.indexed 0) (x.toNat + 1)).setI (maskI (s.indexed (x.toNat + 1))))

/-- FX65 LD Vx,[I]: load V0 to Vx, then `I` past the last byte (spec 43 R100, log entry 8). -/
def execLdVxMemI (x : Nibble) (s : State) : Host.Outcome State Fault Refusal :=
  .next ((s.loadV (s.indexed 0) (x.toNat + 1)).setI (maskI (s.indexed (x.toNat + 1))))

end Sys2Proof.Machine
end

