-- ==== Sys2Proof/Machine/KeyboardTimers.lean ====
section
/-! DEFINITION. Keyboard and timer instructions (spec 45 R110 to R115). -/

namespace Sys2Proof.Machine

/-- EX9E SKP Vx (spec 45 R110). -/
def execSkpVx (x : Nibble) (s : State) : Host.Outcome State Fault Refusal :=
  .next (s.skipIf (s.isPressed (keyIndex (s.readV x))))

/-- EXA1 SKNP Vx (spec 45 R111). -/
def execSknpVx (x : Nibble) (s : State) : Host.Outcome State Fault Refusal :=
  .next (s.skipIf (!s.isPressed (keyIndex (s.readV x))))

/-- FX07 LD Vx,DT (spec 45 R112). -/
def execLdVxDt (x : Nibble) (s : State) : Host.Outcome State Fault Refusal :=
  .next (s.writeV x s.DT)

/-- FX0A LD Vx,K: only enters the wait; a later step resolves it (spec 45 R113, 40 R61). -/
def execLdVxK (x : Nibble) (s : State) : Host.Outcome State Fault Refusal :=
  .next (s.setWait (.awaitingKey x))

/-- FX15 LD DT,Vx (spec 45 R114). -/
def execLdDtVx (x : Nibble) (s : State) : Host.Outcome State Fault Refusal :=
  .next (s.setDT (s.readV x))

/-- FX18 LD ST,Vx (spec 45 R115). -/
def execLdStVx (x : Nibble) (s : State) : Host.Outcome State Fault Refusal :=
  .next (s.setST (s.readV x))

end Sys2Proof.Machine
end

