-- ==== Sys2Proof/Machine/LoadAlu.lean ====
section
/-! DEFINITION. Register load, arithmetic, logic, shift and random (spec 42 R80 to R92). Operands
are read from the state before the instruction (log entry 6). -/

namespace Sys2Proof.Machine

/-- 6XKK LD Vx,byte (spec 42 R80). -/
def execLdVxByte (x : Nibble) (kk : Byte) (s : State) : Host.Outcome State Fault Refusal :=
  .next (s.writeV x kk)

/-- 7XKK ADD Vx,byte: modulo 256, no flag (spec 42 R81). -/
def execAddVxByte (x : Nibble) (kk : Byte) (s : State) : Host.Outcome State Fault Refusal :=
  .next (s.writeV x (s.readV x + kk))

/-- 8XY0 LD Vx,Vy (spec 42 R82). -/
def execLdVxVy (x y : Nibble) (s : State) : Host.Outcome State Fault Refusal :=
  .next (s.writeV x (s.readV y))

/-- 8XY1 OR, VF kept (spec 42 R83). -/
def execOrVxVy (x y : Nibble) (s : State) : Host.Outcome State Fault Refusal :=
  .next (s.writeV x (s.readV x ||| s.readV y))

/-- 8XY2 AND, VF kept (spec 42 R84). -/
def execAndVxVy (x y : Nibble) (s : State) : Host.Outcome State Fault Refusal :=
  .next (s.writeV x (s.readV x &&& s.readV y))

/-- 8XY3 XOR, VF kept (spec 42 R85). -/
def execXorVxVy (x y : Nibble) (s : State) : Host.Outcome State Fault Refusal :=
  .next (s.writeV x (s.readV x ^^^ s.readV y))

/-- 8XY4 ADD Vx,Vy: VF is the carry (spec 42 R86). -/
def execAddVxVy (x y : Nibble) (s : State) : Host.Outcome State Fault Refusal :=
  .next (s.writeFlagThenV (carryOut (s.readV x) (s.readV y)) x (s.readV x + s.readV y))

/-- 8XY5 SUB Vx,Vy: VF is `V[x] > V[y]`, strict (spec 42 R87). -/
def execSubVxVy (x y : Nibble) (s : State) : Host.Outcome State Fault Refusal :=
  .next (s.writeFlagThenV (strictlyGreater (s.readV x) (s.readV y)) x (s.readV x - s.readV y))

/-- 8XY6 SHR: the source is `V[y]` (spec 42 R88). -/
def execShrVxVy (x y : Nibble) (s : State) : Host.Outcome State Fault Refusal :=
  .next (s.writeFlagThenV (bitOutRight (s.readV y)) x (s.readV y >>> 1))

/-- 8XY7 SUBN: VF is `V[y] > V[x]`, strict (spec 42 R89). -/
def execSubnVxVy (x y : Nibble) (s : State) : Host.Outcome State Fault Refusal :=
  .next (s.writeFlagThenV (strictlyGreater (s.readV y) (s.readV x)) x (s.readV y - s.readV x))

/-- 8XYE SHL: the source is `V[y]` (spec 42 R90). -/
def execShlVxVy (x y : Nibble) (s : State) : Host.Outcome State Fault Refusal :=
  .next (s.writeFlagThenV (bitOutLeft (s.readV y)) x (s.readV y <<< 1))

/-- CXKK RND Vx,byte: one free byte is drawn, masked (spec 42 R91, log entry 4). -/
def execRndVxByte (x : Nibble) (kk : Byte) (s : State) : Host.Outcome State Fault Refusal :=
  .next ((s.setRng (randStep s.rng).2).writeV x ((randStep s.rng).1 &&& kk))

end Sys2Proof.Machine
end

