-- ==== Sys2Proof/Machine/Timers.lean ====
section
/-! DEFINITION. The timer unit (spec 60 R127 to R131; log entries 9, 10, 11). -/

namespace Sys2Proof.Machine

/-- The number of whole 60 Hz periods elapsed since the anchor; none if the host's time is behind
the anchor (spec 60 R129). -/
def tickCount (nowMs anchor3 : Nat) : Nat :=
  if anchor3 ≤ 3 * nowMs then (3 * nowMs - anchor3) / Config.tickPeriod3 else 0

/-- A timer lowered by `n` ticks, not below zero (spec 60 R130). -/
def countDown (t : Byte) (n : Nat) : Byte := BitVec.ofNat 8 (t.toNat - min t.toNat n)

/-- Deliver `n` ticks: both timers alike, the anchor by whole periods (spec 60 R129, R130). -/
def State.applyTicks (s : State) (n : Nat) : State :=
  { s with
    DT := countDown s.DT n
    ST := countDown s.ST n
    anchor3 := s.anchor3 + Config.tickPeriod3 * n }

/-- `advance timers(now_ms)`, the end of every step (spec 40 R66), with the time that the host
presented. -/
def State.advanceTimers (s : State) : State := s.applyTicks (tickCount s.nowMs s.anchor3)

end Sys2Proof.Machine
end

