-- ==== Sys2Proof/Machine/Cycle.lean ====
section
/-! DEFINITION. One step of the interpreter (spec 40 R60 to R67): the suspended step, the fetch, the
`PC` increment, the dispatch, the no-operation, and the timers last. -/

namespace Sys2Proof.Machine

/-- Finish an instruction body with the timer update (spec 40 R66). -/
def withTimers : Host.Outcome State Fault Refusal → Host.Outcome State Fault Refusal
  | .next s => .next s.advanceTimers
  | .fault r => .fault r
  | .refused r => .refused r

/-- `op <- MemRead(PC, 2)` (spec 40 R62). -/
def State.fetch (s : State) : Word := s.loadWord s.PC.toNat

/-- The no-operation of an unassigned opcode: the body does nothing (spec 40 R65). -/
def execNoOperation (s : State) : Host.Outcome State Fault Refusal := .next s

/-- Classify an opcode and run its handler, or none (spec 40 R64, R65). -/
def execWord (op : Word) (s : State) : Host.Outcome State Fault Refusal :=
  match decode op with
  | .ok i => exec i s
  | .error _ => execNoOperation s

/-- The poll of a suspended step: the lowest pressed key, if any, goes to `V[x]` and ends the wait
(spec 40 R61). -/
def State.pollKeyboard (s : State) (x : Nibble) : State :=
  match s.lowestKey with
  | some k => (s.writeV x (k.setWidth 8)).setWait .running
  | none => s

/-- `step(now_ms)` with the time that the host presented, `nowMs` (spec 40 R60). -/
def interpreterStep (s : State) : Host.Outcome State Fault Refusal :=
  match s.wait with
  | .awaitingKey x => withTimers (.next (s.pollKeyboard x))
  | .running => withTimers (execWord s.fetch s.advancePC)

/-- The host presents the time of the step that follows (spec 60 R128). -/
def State.presentTime (s : State) (nowMs : Nat) : State := { s with nowMs := nowMs }

end Sys2Proof.Machine
end

