-- ==== Sys2Proof/Machine/Transactions.lean ====
section
/-! DEFINITION. The host's transactions (spec 60 R137, 70 R140, R141; 20 R33, R36, R38), each atomic
and between steps (log entry 12), and the host's reads. -/

namespace Sys2Proof.Machine

/-- `power_on(seed)`: all state is created anew (spec 70 R140). The host's own list of pending
transactions is no state of the core and stays (log entry 16). -/
def State.powerOn (s : State) (seed : Nat) : State :=
  { State.reset with rng := { seed := seed, draws := 0 }, pending := s.pending }

/-- `reset()`: the register file, the framebuffer and the wait; memory, latch, generator and anchor
stay (spec 70 R141, log entry 13). -/
def State.hostReset (s : State) : State :=
  { s with
    V := State.reset.V
    PC := State.reset.PC
    I := State.reset.I
    SP := State.reset.SP
    stack := State.reset.stack
    DT := State.reset.DT
    ST := State.reset.ST
    fb := State.reset.fb
    wait := State.reset.wait }

/-- `set_key(k, pressed)` (spec 60 R135, R137). -/
def State.setKey (s : State) (k : Nibble) (pressed : Bool) : State :=
  { s with key := s.key.set k.toNat pressed k.isLt }

/-- `store_bytes(addr, bytes)` (spec 20 R36). -/
def State.storeBytes (s : State) (addr : Nat) (bytes : List Byte) : State :=
  { s with mem := s.mem.writeBytes addr bytes }

/-- `store_words(addr, words, endian)` (spec 20 R38, log entry 22). -/
def State.storeWords (s : State) (addr : Nat) (words : List Word) (e : Endian) : State :=
  { s with mem := s.mem.writeWords addr words e }

/-- One transaction of the host (spec 60 R137). -/
def transact (t : Transaction) (s : State) : Host.Outcome State Fault Refusal :=
  match t with
  | .powerOn seed => .next (s.powerOn seed)
  | .reset => .next s.hostReset
  | .step now => interpreterStep (s.presentTime now)
  | .setKey k pressed => .next (s.setKey k pressed)
  | .storeByte addr b => .next (s.storeByte addr b)
  | .storeBytes addr bytes => .next (s.storeBytes addr bytes)
  | .storeWords addr words e => .next (s.storeWords addr words e)

/-- One event of the machine: the host's next pending transaction; where none is pending, a step at
the time the host last presented (log entry 1). -/
def nextEvent (s : State) : Host.Outcome State Fault Refusal :=
  match s.pending with
  | t :: rest => transact t { s with pending := rest }
  | [] => interpreterStep s

/-- `pixel(x, y)` (spec 60 R135). -/
def State.pixel (s : State) (x y : Nat) : Bool := s.fb.pixel x y

/-- `observe()`: the registers, and all of the hidden state (spec 60 R137, 10 R27; log entry 24). -/
def State.observe (s : State) : Observation :=
  { V := s.V, I := s.I, PC := s.PC, SP := BitVec.ofNat 8 s.SP.val, stack := s.stack,
    DT := s.DT, ST := s.ST, wait := s.wait, rng := s.rng, anchor3 := s.anchor3 }

/-- The state whose next event fetches and runs the opcode `op`: `op` lies big-endian at `PC`, no
wait is open and no transaction comes first (log entry 17). -/
def State.placeWord (s : State) (op : Word) : State :=
  { s with
    mem := s.mem.writeBytes s.PC.toNat (bytesOfWord op)
    wait := .running
    pending := [] }

end Sys2Proof.Machine
end

