-- ==== Sys2Proof/Machine/Step.lean ====
section
/-! DEFINITION. The machine's step, and the placing of an opcode where the step fetches next. -/

namespace Sys2Proof.Machine

/-- One event of the machine: a pending host transaction, or else a step of the interpreter
(spec 60 R137, 40 R60, log entry 1). -/
def step : State → Host.Outcome State Fault Refusal := nextEvent

/-- The state whose very next step fetches and runs the table word `w` of `nbits` bits
(log entry 17). -/
def State.withFetchWord (s : State) (nbits w : Nat) : State := s.placeWord (tableWord nbits w)

end Sys2Proof.Machine
end

