-- ==== Sys2Proof/Safety.lean ====
section
/-! DEFINITION. The terms claims are stated in: the invariant of the machine (spec 10 R25), what a
frame is (everything an instruction leaves unchanged), what an opcode's fields are as arithmetic,
and which instructions may move which part of the state. There is no error state to avoid: every
step of the machine succeeds (spec 00 R3). -/

namespace Sys2Proof.Machine

/-! ## Invariant -/

/-- What holds in every state reachable from power-on (spec 10 R13, R25; 60 R129): memory in its
canonical form (the model's own, Laws/Memory.lean), `I` below 4096, and no due 60 Hz tick left
undelivered at the time last presented. The bounds of `SP`, `V`, `DT`, `ST` and of the index in
`wait` are in the types. -/
def State.Inv (s : State) : Prop :=
  s.mem.wf ∧ s.I.toNat < 4096 ∧ 3 * s.nowMs < s.anchor3 + Config.tickPeriod3

/-! ## Frames -/

/-- The parts of the state an instruction may write. `v` names registers, `stack` entries of the
return stack, `mem` addresses 0 to 4095. Latch, anchor, time and pending transactions are no part:
no instruction writes them. -/
structure Frame where
  v : Nibble → Bool := fun _ => false
  pc : Bool := false
  i : Bool := false
  sp : Bool := false
  stack : Nat → Bool := fun _ => false
  dt : Bool := false
  st : Bool := false
  rng : Bool := false
  mem : Nat → Bool := fun _ => false
  fb : Bool := false
  wait : Bool := false

/-- Everything outside the frame is unchanged from `s` to `t`: every register, every stack entry,
every byte of memory, every pixel and every other part of the state. -/
structure Frame.Holds (f : Frame) (s t : State) : Prop where
  v : ∀ x, f.v x = false → t.readV x = s.readV x
  pc : f.pc = false → t.PC = s.PC
  i : f.i = false → t.I = s.I
  sp : f.sp = false → t.SP = s.SP
  stack : ∀ k : Fin 16, f.stack k = false → t.stack[k] = s.stack[k]
  dt : f.dt = false → t.DT = s.DT
  st : f.st = false → t.ST = s.ST
  rng : f.rng = false → t.rng = s.rng
  mem : ∀ a, f.mem (Memory.wrap a) = false → t.loadByte a = s.loadByte a
  fb : f.fb = false → ∀ px py, t.pixel px py = s.pixel px py
  wait : f.wait = false → t.wait = s.wait
  key : ∀ k, t.isPressed k = s.isPressed k
  anchor3 : t.anchor3 = s.anchor3
  nowMs : t.nowMs = s.nowMs
  pending : t.pending = s.pending

/-- The frame of an instruction that writes one register. -/
def Frame.reg (x : Nibble) : Frame := { v := fun z => z == x }

/-- The frame of an instruction that writes VF and one register. -/
def Frame.regAndFlag (x : Nibble) : Frame := { v := fun z => z == x || z == vf }

/-- The `count` addresses from `I` on, wrapped: those that an access through `[I]` touches. -/
def State.block (s : State) (count a : Nat) : Bool :=
  (List.range count).any (fun k => a == Memory.wrap (s.indexed k))

/-! ## An opcode's fields as arithmetic (spec 30 R52) -/

/-- Bits 11 to 8. -/
def numX (op : Word) : Nibble := BitVec.ofNat 4 (op.toNat / 256)

/-- Bits 7 to 4. -/
def numY (op : Word) : Nibble := BitVec.ofNat 4 (op.toNat / 16)

/-- Bits 3 to 0. -/
def numN (op : Word) : Nibble := BitVec.ofNat 4 op.toNat

/-- Bits 7 to 0. -/
def numKK (op : Word) : Byte := BitVec.ofNat 8 op.toNat

/-- Bits 11 to 0. -/
def numNNN (op : Word) : Addr := BitVec.ofNat 12 op.toNat

/-- Every opcode that the mask and match select decodes to the given instruction (spec 30 R55). -/
def SelectsAs (mask key : Word) (i : Word → Instr) : Prop :=
  ∀ op : Word, op &&& mask = key → decode op = .ok (i op)

end Sys2Proof.Machine

namespace Sys2Proof

/-! ## Which instructions may move which part -/

/-- The instructions that write VF as a flag (spec 10 R11). -/
def Instr.writesFlag : Instr → Bool
  | .addVxVy _ _ | .subVxVy _ _ | .shrVxVy _ _ | .subnVxVy _ _ | .shlVxVy _ _
  | .drwVxVyN _ _ _ => true
  | _ => false

/-- The V registers an instruction writes as its destination (spec 10 R10); VF as a flag is
`writesFlag`. -/
def Instr.destination : Instr → Nibble → Bool
  | .ldVxByte x _, z | .addVxByte x _, z | .ldVxVy x _, z | .orVxVy x _, z | .andVxVy x _, z
  | .xorVxVy x _, z | .addVxVy x _, z | .subVxVy x _, z | .shrVxVy x _, z | .subnVxVy x _, z
  | .shlVxVy x _, z | .rndVxByte x _, z | .ldVxDt x, z => z == x
  | .ldVxMemI x, z => decide (z.toNat ≤ x.toNat)
  | _, _ => false

/-- The instructions that may assign `PC` in their body (spec 41; 45 R110, R111). -/
def Instr.controlsPC : Instr → Bool
  | .ret _ | .jpAddr _ | .callAddr _ | .jpV0Addr _ | .seVxByte _ _ | .sneVxByte _ _
  | .seVxVy _ _ | .sneVxVy _ _ | .skpVx _ | .sknpVx _ => true
  | _ => false

/-- The instructions that may move `SP` (spec 10 R14). -/
def Instr.movesStack : Instr → Bool
  | .ret _ | .callAddr _ => true
  | _ => false

/-- The instructions that write `I` (spec 10 R13). -/
def Instr.writesIndex : Instr → Bool
  | .ldIAddr _ | .addIVx _ | .ldFVx _ | .ldMemIVx _ | .ldVxMemI _ => true
  | _ => false

/-- The instructions that may write memory (spec 20 R41). -/
def Instr.storesMemory : Instr → Bool
  | .ldBVx _ | .ldMemIVx _ => true
  | _ => false

/-- The instructions that may write pixels (spec 10 R20). -/
def Instr.writesPixels : Instr → Bool
  | .cls _ | .drwVxVyN _ _ _ => true
  | _ => false

end Sys2Proof

namespace Sys2Proof.Machine

/-! ## The sprite as a picture (spec 44 R106) -/

/-- The sprite bit that DXYN XORs onto the pixel at column `px` and row `py`: the pixel lies `col`
columns right of `V[x]` and `row` rows below `V[y]`, modulo 64 and 32; inside the 8 columns and `n`
rows of the sprite it is bit `7 - col` of the byte at `I + row`, and outside it is 0. -/
def State.spriteBit (s : State) (x y n : Nibble) (px py : Nat) : Bool :=
  let col := (px + 256 - (s.readV x).toNat) % 64
  let row := (py + 256 - (s.readV y).toNat) % 32
  decide (col < 8) && decide (row < n.toNat) && (s.loadByte (s.indexed row)).getLsbD (7 - col)

/-! ## Time -/

/-- None of the next `count` events of the machine executes an instruction that meets `p`. -/
def State.NoneExecuted (s : State) (count : Nat) (p : Instr → Prop) : Prop :=
  ∀ (k : Nat) (u : State) (i : Instr), k < count → Host.Core.run Sys2Proof.core k s = .next u →
    u.wait = .running → decode u.fetch = .ok i → ¬ p i

/-- A sequence of times that starts no earlier than `from0` and never falls (spec 60 R128). -/
def NonDecreasing : Nat → List Nat → Prop
  | _, [] => True
  | from0, now :: rest => from0 ≤ now ∧ NonDecreasing now rest

/-- The last time of a sequence, `from0` where it is empty. -/
def lastTime : Nat → List Nat → Nat
  | from0, [] => from0
  | _, now :: rest => lastTime now rest

end Sys2Proof.Machine
end

