-- ==== Sys2Proof/Certificates/Slice0/Obligations.lean ====
section
/-! DEFINITION. The statements for the provers, from the numbered rules of the spec. A docstring
names the rule, and says where a clause rests on a decision of the spec (92 D<n>) or on a choice of
the model (log entry <n>) and not on the source. In every statement about `exec`, `PC` already holds
`pc0 + 2` (spec 40 R63). -/

open Sys2Proof Sys2Proof.Machine

/-! ## Encoding (spec 30) -/

/-- Words of spec 95 section 2.1 and their instructions (sanity). -/
def Obligations.SampleWordsDecode : Prop :=
  decode 0x0AE0#16 = .ok (.cls 0xA#4) ∧ decode 0x0FEE#16 = .ok (.ret 0xF#4) ∧
  decode 0x5AB0#16 = .ok (.seVxVy 0xA#4 0xB#4) ∧ decode 0x8ABE#16 = .ok (.shlVxVy 0xA#4 0xB#4) ∧
  decode 0x9AB0#16 = .ok (.sneVxVy 0xA#4 0xB#4) ∧ decode 0x1FFF#16 = .ok (.jpAddr 0xFFF#12) ∧
  decode 0xDFFF#16 = .ok (.drwVxVyN 0xF#4 0xF#4 0xF#4) ∧ decode 0xE19E#16 = .ok (.skpVx 1#4) ∧
  decode 0xF10A#16 = .ok (.ldVxK 1#4) ∧ decode 0xFF65#16 = .ok (.ldVxMemI 0xF#4) ∧
  decode 0x0123#16 = .error (.unassigned 0x0023#16) ∧
  decode 0xE19F#16 = .error (.unassigned 0xE09F#16)

/-- Every instruction is read back from its own encoding, whatever its operands (spec 30 R53). -/
def Obligations.DecodeOfEncodeIsTheInstruction : Prop :=
  ∀ i : Instr, decode (encode i) = .ok i ∧ decodeBytes (encodeBytes i) = .ok (i, [])

/-- An opcode that decodes is the encoding of what it decodes to: no bit is dropped. That CLS and
RET keep their ignored bits is the model's choice (log entry 18). -/
def Obligations.EncodeOfDecodeIsTheOpcode : Prop :=
  ∀ (op : Word) (i : Instr), decode op = .ok i → encode i = op

/-- `decode(S, encode(S, ops)) == ops` for every operand tuple within the field widths, with the
fixed bits of any row of that shape ORed in; the fixed bits are kept (spec 30 R53). -/
def Obligations.OperandTuplesRoundTrip : Prop :=
  ∀ (i : Instr) (ops : Operands), ops.wellFormed = true → ops.shape = i.operands.shape →
    decodeOperands (i.fixedBits ||| encodeOperands ops) ops.shape = ops ∧
    keyOf (i.fixedBits ||| encodeOperands ops) = i.fixedBits

/-- The classifier selects the same row as mask and match, and no opcode matches two rows
(spec 30 R54, R55). -/
def Obligations.MaskAndMatchSelectTheDecodedRow : Prop :=
  (∀ op : Word, ∀ r ∈ opcodeTable, op &&& r.mask = r.key ↔ keyOf op = r.key) ∧
  (∀ op : Word, ∀ r ∈ opcodeTable, op &&& r.mask = r.key → decode op = .ok (r.build op)) ∧
  (∀ (op : Word) (i : Instr), decode op = .ok i → ∃ r ∈ opcodeTable, op &&& r.mask = r.key)

/-- Which opcodes are unassigned, by top nibble (spec 30 R57). -/
def Obligations.UnassignedOpcodesAreExactlyThese : Prop :=
  ∀ op : Word, (∃ e, decode op = .error e) ↔
    (op.toNat / 4096 = 0x0 ∧ op.toNat % 256 ≠ 0xE0 ∧ op.toNat % 256 ≠ 0xEE) ∨
    (op.toNat / 4096 = 0x5 ∧ op.toNat % 16 ≠ 0) ∨
    (op.toNat / 4096 = 0x8 ∧ 8 ≤ op.toNat % 16 ∧ op.toNat % 16 ≠ 0xE) ∨
    (op.toNat / 4096 = 0x9 ∧ op.toNat % 16 ≠ 0) ∨
    (op.toNat / 4096 = 0xE ∧ op.toNat % 256 ≠ 0x9E ∧ op.toNat % 256 ≠ 0xA1) ∨
    (op.toNat / 4096 = 0xF ∧
      op.toNat % 256 ∉ [0x07, 0x0A, 0x15, 0x18, 0x1E, 0x29, 0x33, 0x55, 0x65])

/-! ## Control transfer (spec 41) -/

/-- 00EE (spec 41 R70): with `SP` > 0 pop into `PC`; with `SP` = 0 do nothing; no entry of `stack`
changes, and bits 11 to 8 of the opcode do not matter. -/
def Obligations.ReturnPopsIntoPC : Prop :=
  SelectsAs 0xF0FF#16 0x00EE#16 (fun op => .ret (numX op)) ∧
  ∀ (ig : Nibble) (s : State), ∃ t, exec (.ret ig) s = .next t ∧
    (∀ h : 0 < s.SP.val, t.SP.val = s.SP.val - 1 ∧ t.PC = s.stack[s.SP.val - 1]'(by omega)) ∧
    (s.SP.val = 0 → t.SP = s.SP ∧ t.PC = s.PC) ∧
    Frame.Holds { pc := true, sp := true } s t

/-- 1NNN (spec 41 R71). -/
def Obligations.JumpSetsPC : Prop :=
  SelectsAs 0xF000#16 0x1000#16 (fun op => .jpAddr (numNNN op)) ∧
  ∀ (nnn : Addr) (s : State), ∃ t, exec (.jpAddr nnn) s = .next t ∧
    t.PC.toNat = nnn.toNat ∧ Frame.Holds { pc := true } s t

/-- 2NNN (spec 41): push `PC` below the full stack; at `SP` = 16 the push is dropped; jump in both
cases. That the jump is taken at `SP` = 16 is the spec's decision D5 (log entry 7). -/
def Obligations.CallPushesAndJumps : Prop :=
  SelectsAs 0xF000#16 0x2000#16 (fun op => .callAddr (numNNN op)) ∧
  ∀ (nnn : Addr) (s : State), ∃ t, exec (.callAddr nnn) s = .next t ∧
    t.PC.toNat = nnn.toNat ∧
    (∀ h : s.SP.val < 16, t.SP.val = s.SP.val + 1 ∧ t.stack[s.SP.val] = s.PC) ∧
    (s.SP.val = 16 → t.SP = s.SP ∧ t.stack = s.stack) ∧
    Frame.Holds { pc := true, sp := true, stack := fun k => k == s.SP.val } s t

/-- 3XKK, 4XKK (spec 41 R73, R74): the next instruction is skipped on equality or inequality of
`V[x]` and the immediate, `PC + 2 mod 2^16`. -/
def Obligations.SkipComparesRegisterWithByte : Prop :=
  SelectsAs 0xF000#16 0x3000#16 (fun op => .seVxByte (numX op) (numKK op)) ∧
  SelectsAs 0xF000#16 0x4000#16 (fun op => .sneVxByte (numX op) (numKK op)) ∧
  ∀ (x : Nibble) (kk : Byte) (s : State),
    (∃ t, exec (.seVxByte x kk) s = .next t ∧
      t.PC.toNat = (if s.readV x = kk then (s.PC.toNat + 2) % 65536 else s.PC.toNat) ∧
      Frame.Holds { pc := true } s t) ∧
    (∃ t, exec (.sneVxByte x kk) s = .next t ∧
      t.PC.toNat = (if s.readV x = kk then s.PC.toNat else (s.PC.toNat + 2) % 65536) ∧
      Frame.Holds { pc := true } s t)

/-- 5XY0, 9XY0 (spec 41 R75, R76): as above, comparing two registers. -/
def Obligations.SkipComparesTwoRegisters : Prop :=
  SelectsAs 0xF00F#16 0x5000#16 (fun op => .seVxVy (numX op) (numY op)) ∧
  SelectsAs 0xF00F#16 0x9000#16 (fun op => .sneVxVy (numX op) (numY op)) ∧
  ∀ (x y : Nibble) (s : State),
    (∃ t, exec (.seVxVy x y) s = .next t ∧
      t.PC.toNat = (if s.readV x = s.readV y then (s.PC.toNat + 2) % 65536 else s.PC.toNat) ∧
      Frame.Holds { pc := true } s t) ∧
    (∃ t, exec (.sneVxVy x y) s = .next t ∧
      t.PC.toNat = (if s.readV x = s.readV y then s.PC.toNat else (s.PC.toNat + 2) % 65536) ∧
      Frame.Holds { pc := true } s t)

/-- BNNN (spec 41 R77): the sum of the address and V0, not masked to 12 bits; it never overflows
16 bits. -/
def Obligations.JumpV0AddsRegisterZero : Prop :=
  SelectsAs 0xF000#16 0xB000#16 (fun op => .jpV0Addr (numNNN op)) ∧
  ∀ (nnn : Addr) (s : State), ∃ t, exec (.jpV0Addr nnn) s = .next t ∧
    t.PC.toNat = nnn.toNat + (s.readV 0#4).toNat ∧ Frame.Holds { pc := true } s t

/-- A call below the full stack, then a return from any state that kept the stack: `PC` is the
return address again and `SP` is as before the call. -/
def Obligations.ReturnUndoesCall : Prop :=
  ∀ (nnn : Addr) (ig : Nibble) (s t u : State), s.SP.val < 16 →
    exec (.callAddr nnn) s = .next t → u.SP = t.SP → u.stack = t.stack →
    ∃ w, exec (.ret ig) u = .next w ∧ w.PC = s.PC ∧ w.SP = s.SP

/-! ## Load, arithmetic, logic, shift, random (spec 42) -/

/-- 6XKK (spec 42 R80). -/
def Obligations.LoadByteSetsRegister : Prop :=
  SelectsAs 0xF000#16 0x6000#16 (fun op => .ldVxByte (numX op) (numKK op)) ∧
  ∀ (x : Nibble) (kk : Byte) (s : State), ∃ t, exec (.ldVxByte x kk) s = .next t ∧
    t.readV x = kk ∧ (Frame.reg x).Holds s t

/-- 7XKK (spec 42 R81): the sum modulo 256, no flag. -/
def Obligations.AddByteWrapsWithoutFlag : Prop :=
  SelectsAs 0xF000#16 0x7000#16 (fun op => .addVxByte (numX op) (numKK op)) ∧
  ∀ (x : Nibble) (kk : Byte) (s : State), ∃ t, exec (.addVxByte x kk) s = .next t ∧
    (t.readV x).toNat = ((s.readV x).toNat + kk.toNat) % 256 ∧ (Frame.reg x).Holds s t

/-- 8XY0 (spec 42 R82). -/
def Obligations.CopySetsRegister : Prop :=
  SelectsAs 0xF00F#16 0x8000#16 (fun op => .ldVxVy (numX op) (numY op)) ∧
  ∀ (x y : Nibble) (s : State), ∃ t, exec (.ldVxVy x y) s = .next t ∧
    t.readV x = s.readV y ∧ (Frame.reg x).Holds s t

/-- 8XY1, 8XY2, 8XY3 (spec 42): bitwise. That VF keeps its value is the spec's own inference. -/
def Obligations.LogicIsBitwiseWithoutFlag : Prop :=
  SelectsAs 0xF00F#16 0x8001#16 (fun op => .orVxVy (numX op) (numY op)) ∧
  SelectsAs 0xF00F#16 0x8002#16 (fun op => .andVxVy (numX op) (numY op)) ∧
  SelectsAs 0xF00F#16 0x8003#16 (fun op => .xorVxVy (numX op) (numY op)) ∧
  ∀ (x y : Nibble) (s : State),
    (∃ t, exec (.orVxVy x y) s = .next t ∧ (Frame.reg x).Holds s t ∧
      ∀ b, (t.readV x).getLsbD b = ((s.readV x).getLsbD b || (s.readV y).getLsbD b)) ∧
    (∃ t, exec (.andVxVy x y) s = .next t ∧ (Frame.reg x).Holds s t ∧
      ∀ b, (t.readV x).getLsbD b = ((s.readV x).getLsbD b && (s.readV y).getLsbD b)) ∧
    (∃ t, exec (.xorVxVy x y) s = .next t ∧ (Frame.reg x).Holds s t ∧
      ∀ b, (t.readV x).getLsbD b = ((s.readV x).getLsbD b ^^ (s.readV y).getLsbD b))

/-- 8XY4 (spec 42): the sum modulo 256, and VF the carry unless VF is the destination. That both
operands are read before VF is written is the spec's decision D4 (log entry 6). -/
def Obligations.AddSetsCarry : Prop :=
  SelectsAs 0xF00F#16 0x8004#16 (fun op => .addVxVy (numX op) (numY op)) ∧
  ∀ (x y : Nibble) (s : State), ∃ t, exec (.addVxVy x y) s = .next t ∧
    (t.readV x).toNat = ((s.readV x).toNat + (s.readV y).toNat) % 256 ∧
    (x ≠ 0xF#4 → (t.readV 0xF#4).toNat =
      if (s.readV x).toNat + (s.readV y).toNat > 0xFF then 1 else 0) ∧
    (Frame.regAndFlag x).Holds s t

/-- 8XY5, 8XY7 (spec 42): the difference modulo 256, and VF 1 exactly when the minuend is strictly
greater, unless VF is the destination. Operands read first: D4 (log entry 6). -/
def Obligations.SubtractSetsStrictFlag : Prop :=
  SelectsAs 0xF00F#16 0x8005#16 (fun op => .subVxVy (numX op) (numY op)) ∧
  SelectsAs 0xF00F#16 0x8007#16 (fun op => .subnVxVy (numX op) (numY op)) ∧
  ∀ (x y : Nibble) (s : State),
    (∃ t, exec (.subVxVy x y) s = .next t ∧
      (t.readV x).toNat = ((s.readV x).toNat + 256 - (s.readV y).toNat) % 256 ∧
      (x ≠ 0xF#4 → (t.readV 0xF#4).toNat =
        if (s.readV x).toNat > (s.readV y).toNat then 1 else 0) ∧
      (Frame.regAndFlag x).Holds s t) ∧
    (∃ t, exec (.subnVxVy x y) s = .next t ∧
      (t.readV x).toNat = ((s.readV y).toNat + 256 - (s.readV x).toNat) % 256 ∧
      (x ≠ 0xF#4 → (t.readV 0xF#4).toNat =
        if (s.readV y).toNat > (s.readV x).toNat then 1 else 0) ∧
      (Frame.regAndFlag x).Holds s t)

/-- 8XY6, 8XYE (spec 42): `V[y]` shifted by one into `V[x]`, and VF the bit shifted out unless VF is
the destination. Operands read first: D4 (log entry 6). -/
def Obligations.ShiftMovesVyIntoVx : Prop :=
  SelectsAs 0xF00F#16 0x8006#16 (fun op => .shrVxVy (numX op) (numY op)) ∧
  SelectsAs 0xF00F#16 0x800E#16 (fun op => .shlVxVy (numX op) (numY op)) ∧
  ∀ (x y : Nibble) (s : State),
    (∃ t, exec (.shrVxVy x y) s = .next t ∧
      (t.readV x).toNat = (s.readV y).toNat / 2 ∧
      (x ≠ 0xF#4 → (t.readV 0xF#4).toNat = (s.readV y).toNat % 2) ∧
      (Frame.regAndFlag x).Holds s t) ∧
    (∃ t, exec (.shlVxVy x y) s = .next t ∧
      (t.readV x).toNat = (s.readV y).toNat * 2 % 256 ∧
      (x ≠ 0xF#4 → (t.readV 0xF#4).toNat = (s.readV y).toNat / 128) ∧
      (Frame.regAndFlag x).Holds s t)

/-- CXKK (spec 42): no bit outside the immediate is set, and the generator moves by one draw. The
byte drawn is a free value, and its form is the model's (D11, log entry 4); the statement holds
whatever it is. -/
def Obligations.RandomByteIsMasked : Prop :=
  SelectsAs 0xF000#16 0xC000#16 (fun op => .rndVxByte (numX op) (numKK op)) ∧
  ∀ (x : Nibble) (kk : Byte) (s : State), ∃ t, exec (.rndVxByte x kk) s = .next t ∧
    t.readV x = (randStep s.rng).1 &&& kk ∧ t.readV x &&& ~~~kk = 0#8 ∧
    t.rng = (randStep s.rng).2 ∧ t.rng.seed = s.rng.seed ∧ t.rng.draws = s.rng.draws + 1 ∧
    Frame.Holds { v := fun z => z == x, rng := true } s t

/-- Only 8XY4 to 8XY7, 8XYE and DXYN write VF other than as a destination, and what they write
there is 0 or 1 (spec 10, the flag register). The order of the two writes with `x` = 0xF is D4
(log entry 6), so that case is left to the per-instruction statements. -/
def Obligations.OnlySixInstructionsWriteTheFlag : Prop :=
  ∀ (i : Instr) (s t : State), exec i s = .next t →
    (i.writesFlag = true → i.destination 0xF#4 = false →
      t.readV 0xF#4 = 0#8 ∨ t.readV 0xF#4 = 1#8) ∧
    (∀ z, i.destination z = false → (z = 0xF#4 → i.writesFlag = false) → t.readV z = s.readV z)

/-! ## Index register and memory instructions (spec 43) -/

/-- ANNN and FX29 (spec 43 R95, R97): the address field, or five times the low four bits of
`V[x]`. -/
def Obligations.IndexLoadsSetI : Prop :=
  SelectsAs 0xF000#16 0xA000#16 (fun op => .ldIAddr (numNNN op)) ∧
  SelectsAs 0xF0FF#16 0xF029#16 (fun op => .ldFVx (numX op)) ∧
  (∀ (nnn : Addr) (s : State), ∃ t, exec (.ldIAddr nnn) s = .next t ∧
    t.I.toNat = nnn.toNat ∧ Frame.Holds { i := true } s t) ∧
  (∀ (x : Nibble) (s : State), ∃ t, exec (.ldFVx x) s = .next t ∧
    t.I.toNat = 5 * ((s.readV x).toNat % 16) ∧ Frame.Holds { i := true } s t)

/-- FX1E (spec 43): the sum modulo 4096. That VF keeps its value on overflow is the spec's own
inference. -/
def Obligations.AddToIndexWrapsAt12Bits : Prop :=
  SelectsAs 0xF0FF#16 0xF01E#16 (fun op => .addIVx (numX op)) ∧
  ∀ (x : Nibble) (s : State), ∃ t, exec (.addIVx x) s = .next t ∧
    t.I.toNat = (s.I.toNat + (s.readV x).toNat) % 4096 ∧ Frame.Holds { i := true } s t

/-- FX33 (spec 43 R98): hundreds, tens, ones at `I`, `I + 1`, `I + 2`, each address wrapped; `I` and
every other byte unchanged. -/
def Obligations.BcdStoresThreeDigits : Prop :=
  SelectsAs 0xF0FF#16 0xF033#16 (fun op => .ldBVx (numX op)) ∧
  ∀ (x : Nibble) (s : State), ∃ t, exec (.ldBVx x) s = .next t ∧
    (t.loadByte (s.indexed 0)).toNat = (s.readV x).toNat / 100 ∧
    (t.loadByte (s.indexed 1)).toNat = (s.readV x).toNat / 10 % 10 ∧
    (t.loadByte (s.indexed 2)).toNat = (s.readV x).toNat % 10 ∧
    Frame.Holds { mem := s.block 3 } s t

/-- The three digits of FX33 make up the register's value (spec 95 section 4, property 5). -/
def Obligations.BcdDigitsMakeUpTheValue : Prop :=
  ∀ (x : Nibble) (s t : State), exec (.ldBVx x) s = .next t →
    100 * (t.loadByte (t.indexed 0)).toNat + 10 * (t.loadByte (t.indexed 1)).toNat +
      (t.loadByte (t.indexed 2)).toNat = (s.readV x).toNat

/-- FX55 (spec 43): V0 to Vx at `I` and on, each address wrapped, `I` past the last byte, every
other byte unchanged. The 12-bit reduction of the final `I` is the spec's decision D6
(log entry 8). -/
def Obligations.StoreRegistersWritesBlock : Prop :=
  SelectsAs 0xF0FF#16 0xF055#16 (fun op => .ldMemIVx (numX op)) ∧
  ∀ (x : Nibble) (s : State), ∃ t, exec (.ldMemIVx x) s = .next t ∧
    (∀ k : Nibble, k.toNat ≤ x.toNat → t.loadByte (s.indexed k.toNat) = s.readV k) ∧
    t.I.toNat = (s.I.toNat + x.toNat + 1) % 4096 ∧
    Frame.Holds { i := true, mem := s.block (x.toNat + 1) } s t

/-- FX65 (spec 43): V0 to Vx from `I` and on, each address wrapped, `I` past the last byte, no
memory byte changed. The 12-bit reduction of the final `I` is D6 (log entry 8). -/
def Obligations.LoadRegistersReadsBlock : Prop :=
  SelectsAs 0xF0FF#16 0xF065#16 (fun op => .ldVxMemI (numX op)) ∧
  ∀ (x : Nibble) (s : State), ∃ t, exec (.ldVxMemI x) s = .next t ∧
    (∀ k : Nibble, k.toNat ≤ x.toNat → t.readV k = s.loadByte (s.indexed k.toNat)) ∧
    t.I.toNat = (s.I.toNat + x.toNat + 1) % 4096 ∧
    Frame.Holds { v := fun z => decide (z.toNat ≤ x.toNat), i := true } s t

/-- FX55, then FX65 with the same `x` and the same `I` from any state with that memory, loads the
registers that were stored (spec 95 section 4, property 6). -/
def Obligations.LoadRegistersUndoesStore : Prop :=
  ∀ (x : Nibble) (s t u : State), exec (.ldMemIVx x) s = .next t →
    u.mem = t.mem → u.I = s.I →
    ∃ w, exec (.ldVxMemI x) u = .next w ∧ w.I = t.I ∧
      ∀ k : Nibble, k.toNat ≤ x.toNat → w.readV k = s.readV k

/-! ## Display (spec 44) -/

/-- 00E0 (spec 44 R105): every pixel 0, whatever bits 11 to 8 are. -/
def Obligations.ClearScreenClearsEveryPixel : Prop :=
  SelectsAs 0xF0FF#16 0x00E0#16 (fun op => .cls (numX op)) ∧
  ∀ (ig : Nibble) (s : State), ∃ t, exec (.cls ig) s = .next t ∧
    (∀ px py, t.pixel px py = false) ∧ Frame.Holds { fb := true } s t

/-- DXYN (spec 44): every pixel of the screen is XORed with the sprite bit that falls on it, with
wrap on both axes, and VF is 1 exactly when a lit pixel was cleared. The loop of the rule against
the picture it draws. That the coordinates are read before VF is written is D4 (log entry 6). -/
def Obligations.DrawXorsTheSprite : Prop :=
  SelectsAs 0xF000#16 0xD000#16 (fun op => .drwVxVyN (numX op) (numY op) (numN op)) ∧
  ∀ (x y n : Nibble) (s : State), ∃ t, exec (.drwVxVyN x y n) s = .next t ∧
    (∀ px py, px < 64 → py < 32 →
      t.pixel px py = (s.pixel px py ^^ s.spriteBit x y n px py)) ∧
    ((∃ px py, px < 64 ∧ py < 32 ∧ s.pixel px py = true ∧ t.pixel px py = false) →
      t.readV 0xF#4 = 1#8) ∧
    ((¬ ∃ px py, px < 64 ∧ py < 32 ∧ s.pixel px py = true ∧ t.pixel px py = false) →
      t.readV 0xF#4 = 0#8) ∧
    Frame.Holds { v := fun z => z == vf, fb := true } s t

/-- Drawing again with the same operands (registers as before the first draw) restores the
framebuffer (spec 95 section 4, property 4). -/
def Obligations.DrawTwiceRestoresTheScreen : Prop :=
  ∀ (x y n : Nibble) (s t u : State), exec (.drwVxVyN x y n) s = .next t →
    exec (.drwVxVyN x y n) { t with V := s.V } = .next u → u.fb = s.fb

/-! ## Keyboard and timer instructions (spec 45) -/

/-- EX9E (spec 45 R110): skip when the key named by the low four bits of `V[x]` is pressed. -/
def Obligations.SkipIfKeyPressed : Prop :=
  SelectsAs 0xF0FF#16 0xE09E#16 (fun op => .skpVx (numX op)) ∧
  ∀ (x : Nibble) (s : State), ∃ t, exec (.skpVx x) s = .next t ∧
    t.PC.toNat = (if s.isPressed (BitVec.ofNat 4 (s.readV x).toNat) = true
      then (s.PC.toNat + 2) % 65536 else s.PC.toNat) ∧
    Frame.Holds { pc := true } s t

/-- EXA1 (spec 45): skip when that key is not pressed. That the key index is the same as EX9E's is
the spec's own inference. -/
def Obligations.SkipIfKeyReleased : Prop :=
  SelectsAs 0xF0FF#16 0xE0A1#16 (fun op => .sknpVx (numX op)) ∧
  ∀ (x : Nibble) (s : State), ∃ t, exec (.sknpVx x) s = .next t ∧
    t.PC.toNat = (if s.isPressed (BitVec.ofNat 4 (s.readV x).toNat) = true
      then s.PC.toNat else (s.PC.toNat + 2) % 65536) ∧
    Frame.Holds { pc := true } s t

/-- FX07 (spec 45 R112), and its step: the value read is `DT` as the previous step left it. -/
def Obligations.ReadDelayTimer : Prop :=
  SelectsAs 0xF0FF#16 0xF007#16 (fun op => .ldVxDt (numX op)) ∧
  (∀ (x : Nibble) (s : State), ∃ t, exec (.ldVxDt x) s = .next t ∧
    t.readV x = s.DT ∧ (Frame.reg x).Holds s t) ∧
  (∀ (x : Nibble) (s : State), s.pending = [] → s.wait = .running →
    decode s.fetch = .ok (.ldVxDt x) → ∃ t, step s = .next t ∧ t.readV x = s.DT)

/-- FX15, FX18 (spec 45 R114, R115), and their steps: the timer update at the end of the same step
acts on the value written, and the write does not move the tick phase. -/
def Obligations.WriteTimers : Prop :=
  SelectsAs 0xF0FF#16 0xF015#16 (fun op => .ldDtVx (numX op)) ∧
  SelectsAs 0xF0FF#16 0xF018#16 (fun op => .ldStVx (numX op)) ∧
  (∀ (x : Nibble) (s : State),
    (∃ t, exec (.ldDtVx x) s = .next t ∧ t.DT = s.readV x ∧ Frame.Holds { dt := true } s t) ∧
    (∃ t, exec (.ldStVx x) s = .next t ∧ t.ST = s.readV x ∧ Frame.Holds { st := true } s t)) ∧
  (∀ (x : Nibble) (s : State), s.pending = [] → s.wait = .running →
    (decode s.fetch = .ok (.ldDtVx x) → ∃ t, step s = .next t ∧
      t.DT = ({ s with DT := s.readV x } : State).advanceTimers.DT ∧
      t.anchor3 = s.advanceTimers.anchor3) ∧
    (decode s.fetch = .ok (.ldStVx x) → ∃ t, step s = .next t ∧
      t.ST = ({ s with ST := s.readV x } : State).advanceTimers.ST ∧
      t.anchor3 = s.advanceTimers.anchor3))

/-- FX0A (spec 45 R113): the step that fetches it only enters the wait; a later step that finds a
key pressed writes the lowest code and ends the wait, with `PC` as FX0A left it; a later step that
finds none only advances the timers, which count during the wait. -/
def Obligations.KeyWaitEntersAndResolves : Prop :=
  SelectsAs 0xF0FF#16 0xF00A#16 (fun op => .ldVxK (numX op)) ∧
  (∀ (x : Nibble) (s : State), ∃ t, exec (.ldVxK x) s = .next t ∧
    t.wait = .awaitingKey x ∧ Frame.Holds { wait := true } s t) ∧
  (∀ (x k : Nibble) (s : State), s.pending = [] → s.wait = .awaitingKey x →
    s.isPressed k = true → (∀ j : Nibble, j.toNat < k.toNat → s.isPressed j = false) →
    ∃ t, step s = .next t ∧ (t.readV x).toNat = k.toNat ∧ t.wait = .running ∧ t.PC = s.PC ∧
      t.DT = s.advanceTimers.DT ∧ t.ST = s.advanceTimers.ST) ∧
  (∀ (x : Nibble) (s : State), s.pending = [] → s.wait = .awaitingKey x →
    (∀ k, s.isPressed k = false) → step s = .next s.advanceTimers)

/-! ## The step (spec 40) -/

/-- A step runs the decoded instruction: when the opcode at `PC` decodes to `i` and no wait is open,
the step is `exec i` on the state with `PC` advanced by 2, finished by the timer update. Where the
host has a step pending, the same holds at the time it presents. The pending list is the model's own
(log entry 1), and so is the wrap of `PC` the spec's (D3, log entry 5). -/
def Obligations.StepRunsTheDecodedInstruction : Prop :=
  (∀ (i : Instr) (s : State), s.pending = [] → s.wait = .running → decode s.fetch = .ok i →
    step s = withTimers (exec i s.advancePC)) ∧
  (∀ (i : Instr) (s : State) (now : Nat) (rest : List Transaction),
    s.pending = .step now :: rest → s.wait = .running → decode s.fetch = .ok i →
    step s = withTimers (exec i ({ s with pending := rest, nowMs := now } : State).advancePC)) ∧
  (∀ s : State, s.advancePC.PC.toNat = (s.PC.toNat + 2) % 65536 ∧
    Frame.Holds { pc := true } s s.advancePC) ∧
  (∀ s : State, withTimers (.next s) = .next s.advanceTimers)

/-- A step that the host has pending is the same step as with nothing pending, at the time it
presents, and takes itself off the list (the model's own list, log entry 1). So every statement
about a step with nothing pending holds of the host's `step(now_ms)`. -/
def Obligations.PendingStepActsAtItsTime : Prop :=
  ∀ (s : State) (now : Nat) (rest : List Transaction), s.pending = .step now :: rest →
    ∃ t, step { s with pending := [], nowMs := now } = .next t ∧
      step s = .next { t with pending := rest }

/-- The 16-bit read is big-endian, each of its two byte addresses wrapped on its own (spec 20 R34),
and the fetch is that read at `PC` (spec 40 R62). -/
def Obligations.FetchIsTheBigEndianWordAtPC : Prop :=
  ∀ s : State, s.fetch = s.loadWord s.PC.toNat ∧
    ∀ a : Nat, (s.loadWord a).toNat =
      256 * (s.loadByte (a % 4096)).toNat + (s.loadByte ((a + 1) % 4096)).toNat

/-- The unassigned opcode (spec 40 R65): the step's only effects are the `PC` increment and the
timer update. -/
def Obligations.UnassignedOpcodeIsANoOperation : Prop :=
  ∀ s : State, s.pending = [] → s.wait = .running →
    (∀ r ∈ opcodeTable, r.key ≠ keyOf s.fetch) →
    step s = .next s.advancePC.advanceTimers

/-- The suspended step (spec 40 R61): with a key pressed the lowest code goes to `V[x]` and the wait
ends; with none nothing happens; no fetch, `PC`, `I`, memory, framebuffer and all other registers
unchanged; the timers advance as in every step. -/
def Obligations.SuspendedStepPollsTheKeyboard : Prop :=
  ∀ (x : Nibble) (s : State), s.pending = [] → s.wait = .awaitingKey x →
    ∃ t, step s = .next t ∧
      (∀ k : Nibble, s.isPressed k = true →
        (∀ j : Nibble, j.toNat < k.toNat → s.isPressed j = false) →
        t.readV x = k.setWidth 8 ∧ t.wait = .running) ∧
      ((∀ k : Nibble, s.isPressed k = false) → t.readV x = s.readV x ∧ t.wait = s.wait) ∧
      t.DT = s.advanceTimers.DT ∧ t.ST = s.advanceTimers.ST ∧
      Frame.Holds { v := fun z => z == x, dt := true, st := true, wait := true }
        { s with anchor3 := s.advanceTimers.anchor3 } t

/-- Every event from every state succeeds. That a step of the interpreter reports no error is spec 00
R3; that the event may be a pending host transaction is the model's own (log entry 1, spec 60 R137),
and that a `store_bytes` past 0xFFF wraps and is not refused is the model's reading (log entry 20,
spec 20 R36). -/
def Obligations.EveryStepSucceeds : Prop :=
  ∀ s : State, ∃ t, step s = .next t

/-- An instruction that is no jump, call, return or skip leaves `PC` at `pc0 + 2`, and so does an
unassigned opcode. The reduction modulo 2^16 is D3 (log entry 5). -/
def Obligations.NonBranchingStepAdvancesPCByTwo : Prop :=
  ∀ s t : State, s.pending = [] → s.wait = .running →
    (∀ i, decode s.fetch = .ok i → i.controlsPC = false) →
    step s = .next t → t.PC.toNat = (s.PC.toNat + 2) % 65536

/-- Each part of the state is written only by the instructions the spec names for it: a V register
by those that have it as destination and VF by those that write it as a flag, `I` by ANNN, FX1E,
FX29, FX55 and FX65, `SP` and `stack` by 2NNN and 00EE, memory by FX33 and FX55, pixels by 00E0 and
DXYN, the generator by CXKK, `DT` by FX15, `ST` by FX18, `wait` by FX0A, `PC` by the control
transfers; the keyboard latch and the anchor by none, nor the model's own time and pending list
(log entry 1). -/
def Obligations.InstructionsWriteOnlyTheirOwnParts : Prop :=
  ∀ (i : Instr) (s t : State), exec i s = .next t →
    t.key = s.key ∧ t.anchor3 = s.anchor3 ∧ t.nowMs = s.nowMs ∧ t.pending = s.pending ∧
    (∀ z, i.destination z = false → (z = 0xF#4 → i.writesFlag = false) → t.readV z = s.readV z) ∧
    (i.writesIndex = false → t.I = s.I) ∧
    (i.movesStack = false → t.SP = s.SP ∧ t.stack = s.stack) ∧
    (i.storesMemory = false → t.mem = s.mem) ∧
    (i.writesPixels = false → t.fb = s.fb) ∧
    (i.controlsPC = false → t.PC = s.PC) ∧
    ((∀ x kk, i ≠ .rndVxByte x kk) → t.rng = s.rng) ∧
    ((∀ x, i ≠ .ldDtVx x) → t.DT = s.DT) ∧ ((∀ x, i ≠ .ldStVx x) → t.ST = s.ST) ∧
    ((∀ x, i ≠ .ldVxK x) → t.wait = s.wait)

/-- The invariant is kept by every event of the machine, instruction, suspended step or host
transaction, from every state that meets it. Its memory clause is the model's own form. -/
def Obligations.StepKeepsTheInvariant : Prop :=
  ∀ s t : State, s.Inv → step s = .next t → t.Inv

/-- The invariant holds after power-on. -/
def Obligations.ResetMeetsTheInvariant : Prop := State.reset.Inv

/-! ## Memory (spec 20) -/

/-- A byte written is read back at every address that masks to the same 12 bits, and no other byte
changes (spec 20 R31, R32, R33). -/
def Obligations.ByteWritesAreReadBack : Prop :=
  ∀ (s : State) (a b : Nat) (v : Byte),
    (s.storeByte a v).loadByte b = (if a % 4096 = b % 4096 then v else s.loadByte b) ∧
    s.loadByte a = s.loadByte (a % 4096)

/-- `store_bytes` (spec 20): byte after byte at rising addresses, so a later byte wins, and a slice
of at most 4096 bytes is read back whole with every byte outside it unchanged. That each address of
the slice wraps is the spec's own inference. -/
def Obligations.StoreBytesWritesTheSlice : Prop :=
  (∀ (s : State) (a : Nat) (bs : List Byte) (b : Byte),
    transact (.storeBytes a (bs ++ [b])) s =
      .next ((s.storeBytes a bs).storeByte (a + bs.length) b)) ∧
  (∀ (s : State) (a : Nat) (bs : List Byte), bs.length ≤ 4096 →
    ∃ t, transact (.storeBytes a bs) s = .next t ∧
      (∀ (i : Nat) (h : i < bs.length), t.loadByte (a + i) = bs[i]) ∧
      Frame.Holds { mem := fun c => (List.range bs.length).any (fun i => c == Memory.wrap (a + i)) }
        s t)

/-- `store_words` (spec 20): words stored "big" are read back as they are, words stored "little"
byte-swapped, as long as they do not overlap; every byte outside the words and everything else is
unchanged. That each address wraps, and what is read back, are the spec's own inferences
(log entry 22). -/
def Obligations.StoreWordsByEndian : Prop :=
  ∀ (s : State) (a : Nat) (ws : List Word) (e : Endian), 2 * ws.length ≤ 4096 →
    ∃ t, transact (.storeWords a ws e) s = .next t ∧
      (∀ (i : Nat) (h : i < ws.length), (t.loadWord (a + 2 * i)).toNat =
        match e with
        | .big => (ws[i]).toNat
        | .little => (ws[i]).toNat % 256 * 256 + (ws[i]).toNat / 256) ∧
      Frame.Holds
        { mem := fun c => (List.range (2 * ws.length)).any (fun i => c == Memory.wrap (a + i)) } s t

/-- Two memories in the model's canonical form that read alike are equal data (the model's own form;
State.lean). -/
def Obligations.CanonicalMemoriesThatReadAlikeAreEqual : Prop :=
  ∀ m m' : Memory, m.wf → m'.wf → (∀ a, m.read a = m'.read a) → m = m'

/-! ## Timers (spec 60) -/

/-- One timer update (spec 60): the anchor moves by whole periods of 50 thirds of a millisecond to
within one period of the time presented, both timers fall by that number of periods and not below
zero, and time behind the anchor does nothing. The algorithm is the spec's decision D7, D8
(log entries 9, 11). -/
def Obligations.TimerUpdateDeliversWholePeriods : Prop :=
  ∀ s : State,
    (s.anchor3 ≤ 3 * s.nowMs → ∃ n,
      s.advanceTimers.anchor3 = s.anchor3 + 50 * n ∧
      s.anchor3 + 50 * n ≤ 3 * s.nowMs ∧ 3 * s.nowMs < s.anchor3 + 50 * n + 50 ∧
      s.advanceTimers.DT.toNat = s.DT.toNat - n ∧ s.advanceTimers.ST.toNat = s.ST.toNat - n) ∧
    (3 * s.nowMs < s.anchor3 → s.advanceTimers = s) ∧
    Frame.Holds { dt := true, st := true } { s with anchor3 := s.advanceTimers.anchor3 }
      s.advanceTimers

/-- A run of the machine over steps at non-decreasing times completes, and there is one number `N`
of ticks, between `floor(60 * (t2 - t1) / 1000)` and one more for the last time `t2` and the time
`t1` of the start, by which `DT` falls, not below zero, where no step executes FX15, and `ST` where
none executes FX18 (spec 60, corrected property P7). The bounds are the spec's own inference; that
one `N` serves both timers is D8 (log entry 9); the pending steps are log entry 1. The start is a
state after a step's timer update: no tick due, and the time not behind the anchor. -/
def Obligations.TimersFallAtSixtyHertz : Prop :=
  ∀ (s : State) (times : List Nat), s.anchor3 ≤ 3 * s.nowMs → 3 * s.nowMs < s.anchor3 + 50 →
    NonDecreasing s.nowMs times → s.pending = times.map Transaction.step →
    ∃ (t : State) (n : Nat), Host.Core.run Sys2Proof.core times.length s = .next t ∧
      60 * (lastTime s.nowMs times - s.nowMs) / 1000 ≤ n ∧
      n ≤ 60 * (lastTime s.nowMs times - s.nowMs) / 1000 + 1 ∧
      (s.NoneExecuted times.length (fun i => ∃ x, i = .ldDtVx x) →
        t.DT.toNat = s.DT.toNat - n) ∧
      (s.NoneExecuted times.length (fun i => ∃ x, i = .ldStVx x) →
        t.ST.toNat = s.ST.toNat - n)

/-- A step lowers `DT` by its ticks unless it executes FX15, and `ST` unless it executes FX18: no
other step raises a timer (spec 60). -/
def Obligations.TimersNeverRiseUnlessWritten : Prop :=
  ∀ s t : State, s.pending = [] → step s = .next t →
    ((s.wait = .running → ∀ x, decode s.fetch ≠ .ok (.ldDtVx x)) →
      t.DT.toNat = s.DT.toNat - tickCount s.nowMs s.anchor3) ∧
    ((s.wait = .running → ∀ x, decode s.fetch ≠ .ok (.ldStVx x)) →
      t.ST.toNat = s.ST.toNat - tickCount s.nowMs s.anchor3)

/-- Time and anchor act on a step only through the tick count: two states that differ in them alone
and give the same count step to states that differ in them alone (spec 60, a model without time). -/
def Obligations.TimeActsOnlyThroughTheTickCount : Prop :=
  ∀ (s t : State) (now anchor : Nat), s.pending = [] →
    tickCount now anchor = tickCount s.nowMs s.anchor3 → step s = .next t →
    ∃ u, step { s with nowMs := now, anchor3 := anchor } = .next u ∧
      { u with nowMs := t.nowMs, anchor3 := t.anchor3 } = t

/-- A key wait holds as long as no key is pressed, through any number of steps at any times: the
wait stays open and nothing but the timers changes (spec 40, 60). -/
def Obligations.KeyWaitHoldsWithoutAKey : Prop :=
  ∀ (times : List Nat) (s : State) (x : Nibble), s.wait = .awaitingKey x →
    (∀ k, s.isPressed k = false) → s.pending = times.map Transaction.step →
    ∃ t, Host.Core.run Sys2Proof.core times.length s = .next t ∧
      ∃ (dt st : Byte) (anchor : Nat),
        t = { s with DT := dt, ST := st, anchor3 := anchor, nowMs := lastTime s.nowMs times,
                     pending := [] } ∧
        dt.toNat ≤ s.DT.toNat ∧ st.toNat ≤ s.ST.toNat

/-! ## Power-on, reset and the host (spec 60, 70) -/

/-- The state after power-on (spec 70). `PC` is the source's; the other values are the spec's
decisions D9, D12 to D16 (log entries 2, 3, 10, 13, 23). -/
def Obligations.PowerOnValues : Prop :=
  State.reset.PC = 0x200#16 ∧ State.reset.I = 0#16 ∧ State.reset.SP.val = 0 ∧
  (∀ x, State.reset.readV x = 0#8) ∧ (∀ k : Fin 16, State.reset.stack[k] = 0#16) ∧
  State.reset.DT = 0#8 ∧ State.reset.ST = 0#8 ∧ State.reset.wait = .running ∧
  (∀ px py, State.reset.pixel px py = false) ∧ (∀ k, State.reset.isPressed k = false) ∧
  State.reset.anchor3 = 0 ∧
  (∀ a, 80 ≤ a → a < 4096 → State.reset.loadByte a = 0#8) ∧
  (List.range 80).map State.reset.loadByte =
    [0xF0, 0x90, 0x90, 0x90, 0xF0, 0x20, 0x60, 0x20, 0x20, 0x70, 0xF0, 0x10, 0xF0, 0x80, 0xF0,
     0xF0, 0x10, 0xF0, 0x10, 0xF0, 0x90, 0x90, 0xF0, 0x10, 0x10, 0xF0, 0x80, 0xF0, 0x10, 0xF0,
     0xF0, 0x80, 0xF0, 0x90, 0xF0, 0xF0, 0x10, 0x20, 0x40, 0x40] ++
    [0xF0, 0x90, 0xF0, 0x90, 0xF0, 0xF0, 0x90, 0xF0, 0x10, 0xF0, 0xF0, 0x90, 0xF0, 0x90, 0x90,
     0xE0, 0x90, 0xE0, 0x90, 0xE0, 0xF0, 0x80, 0x80, 0x80, 0xF0, 0xE0, 0x90, 0x90, 0x90, 0xE0,
     0xF0, 0x80, 0xF0, 0x80, 0xF0, 0xF0, 0x80, 0xF0, 0x80, 0x80]

/-- What `reset()` and `power_on(seed)` leave, from any state (spec 70): `reset()` restores the
register file, blanks the screen and ends the wait, and keeps memory, latch, generator and anchor;
`power_on` makes the power-on state with the given seed. Decisions D9, D13, D16 (log entries 10, 13,
16). -/
def Obligations.ResetAndPowerOnTransactions : Prop :=
  (∀ s : State, ∃ t, transact .reset s = .next t ∧
    t.PC = 0x200#16 ∧ t.I = 0#16 ∧ t.SP.val = 0 ∧ (∀ x, t.readV x = 0#8) ∧
    (∀ k : Fin 16, t.stack[k] = 0#16) ∧ t.DT = 0#8 ∧ t.ST = 0#8 ∧ t.wait = .running ∧
    (∀ px py, t.pixel px py = false) ∧
    Frame.Holds { v := fun _ => true, pc := true, i := true, sp := true, stack := fun _ => true,
                  dt := true, st := true, fb := true, wait := true } s t) ∧
  (∀ (s : State) (seed : Nat), transact (.powerOn seed) s =
    .next { State.reset with rng := { seed := seed, draws := 0 }, pending := s.pending })

/-- `set_key(k, pressed)` sets that latch entry and changes nothing else (spec 60, the keyboard
latch), and a pending transaction is the next event of the machine (log entry 1). -/
def Obligations.SetKeyChangesOneEntry : Prop :=
  ∀ (s : State) (k : Nibble) (pressed : Bool) (rest : List Transaction),
    s.pending = .setKey k pressed :: rest →
    ∃ t, step s = .next t ∧ (∀ j, t.isPressed j = if j = k then pressed else s.isPressed j) ∧
      { t with key := s.key, pending := s.pending } = s

/-- The word placed for the very next step is the one it fetches and runs (log entry 17). -/
def Obligations.PlacedWordIsFetchedNext : Prop :=
  ∀ (s : State) (w : Nat), (s.withFetchWord 16 w).fetch = BitVec.ofNat 16 w ∧
    step (s.withFetchWord 16 w) =
      withTimers (execWord (BitVec.ofNat 16 w) (s.withFetchWord 16 w).advancePC) ∧
    (s.withFetchWord 16 w).PC = s.PC ∧ (s.withFetchWord 16 w).V = s.V
end

