-- ==== Sys2Proof/Laws/Decode.lean ====
section
/-! SUPPORT. Laws of the decoder and the encoder: the classifier against mask and match, the row an
opcode selects, and what an encoded operand tuple leaves alone. -/

namespace Sys2Proof

/-! ## Well-formedness -/

/-- The operands of an instruction fit their fields: the widths are in the types. -/
theorem wellFormed_instr (i : Instr) : i.wellFormed = true := by
  have h4 (v : Nibble) : v.toNat < 16 := v.isLt
  have h8 (v : Byte) : v.toNat < 256 := v.isLt
  have h12 (v : Addr) : v.toNat < 4096 := v.isLt
  cases i <;> simp [Instr.wellFormed, Instr.operands, Operands.wellFormed, h4, h8, h12]

/-! ## Bits -/

theorem topNibble_or (a b : Word) : topNibble (a ||| b) = topNibble a ||| topNibble b := by
  apply BitVec.eq_of_getLsbD_eq
  intro i hi
  simp [topNibble, hi]

/-- The top nibble depends on bits 15 to 12 alone. -/
theorem topNibble_and_mask (op : Word) : topNibble (op &&& 0xF000#16) = topNibble op := by
  apply BitVec.eq_of_getLsbD_eq
  intro i hi
  have hm : ∀ j < 4, (0xF000#16).getLsbD (12 + j) = true := by decide
  simp only [topNibble, BitVec.getLsbD_extractLsb', BitVec.getLsbD_and, hm i hi, Bool.and_true]

theorem and_narrow {op k m m' : Word} (h : op &&& m = k) (hm : m &&& m' = m') :
    op &&& m' = k &&& m' := by
  rw [← h, BitVec.and_assoc, hm]

/-! ## Classifier (spec 30 R54) -/

/-- The key where the top nibble is 0, E or F. -/
theorem keyOf_byte {op : Word} (h : topNibble op ∈ [0x0#4, 0xE#4, 0xF#4]) :
    keyOf op = op &&& 0xF0FF#16 := by
  simp only [List.mem_cons, List.not_mem_nil, or_false] at h
  simp only [keyOf, if_pos h]
  rw [← BitVec.and_or_distrib_left]; rfl

/-- The key where the top nibble is 5, 8 or 9. -/
theorem keyOf_nibble {op : Word} (h : topNibble op ∈ [0x5#4, 0x8#4, 0x9#4]) :
    keyOf op = op &&& 0xF00F#16 := by
  simp only [List.mem_cons, List.not_mem_nil, or_false] at h
  have h' : ¬ (topNibble op = 0x0#4 ∨ topNibble op = 0xE#4 ∨ topNibble op = 0xF#4) := by
    rcases h with h | h | h <;> simp [h]
  simp only [keyOf, if_neg h', if_pos h]
  rw [← BitVec.and_or_distrib_left]; rfl

/-- The key for the other top nibbles. -/
theorem keyOf_top {op : Word}
    (h : topNibble op ∉ [0x0#4, 0xE#4, 0xF#4, 0x5#4, 0x8#4, 0x9#4]) :
    keyOf op = op &&& 0xF000#16 := by
  simp only [List.mem_cons, List.not_mem_nil, or_false, not_or] at h
  simp [keyOf, h]

/-- The mask of a row that has the given key, a function of the key's top nibble (spec 30 R54). -/
def maskFor (t : Nibble) : Word :=
  if t ∈ [0x0#4, 0xE#4, 0xF#4] then 0xF0FF#16
  else if t ∈ [0x5#4, 0x8#4, 0x9#4] then 0xF00F#16 else 0xF000#16

/-- The classifier is a mask that depends on the top nibble alone. -/
theorem keyOf_eq_mask (op : Word) : keyOf op = op &&& maskFor (topNibble op) := by
  unfold maskFor
  split
  · exact keyOf_byte ‹_›
  · split
    · exact keyOf_nibble ‹_›
    · rename_i h1 h2
      exact keyOf_top (by simp only [List.mem_cons, List.not_mem_nil, or_false, not_or] at *; tauto)

theorem maskFor_and (t : Nibble) : maskFor t &&& 0xF000#16 = 0xF000#16 := by
  revert t; decide

/-- The key keeps the top nibble. -/
theorem topNibble_keyOf (op : Word) : topNibble (keyOf op) = topNibble op := by
  rw [keyOf_eq_mask, ← topNibble_and_mask, BitVec.and_assoc, maskFor_and, topNibble_and_mask]

/-- In every row of the table the mask is the one its key's top nibble has. -/
theorem mask_eq_maskFor : ∀ r ∈ opcodeTable, r.mask = maskFor (topNibble r.key) := by
  simp only [opcodeTable, rowsControl, rowsByte, rowsAlu, rowsIndex, rowsSystem,
    List.forall_mem_append, List.forall_mem_cons]
  constructorm* _ ∧ _ <;> first | rfl | simp

/-- Mask and match select an opcode exactly when the classifier gives it the row's key. -/
theorem match_iff_key (op : Word) {r : Row} (hr : r ∈ opcodeTable) :
    op &&& r.mask = r.key ↔ keyOf op = r.key := by
  rw [mask_eq_maskFor r hr]
  constructor
  · intro h
    have ht : topNibble op = topNibble r.key := by
      have := and_narrow h (maskFor_and _)
      rw [← topNibble_and_mask op, this, topNibble_and_mask]
    rw [keyOf_eq_mask, ht, h]
  · intro h
    have ht : topNibble op = topNibble r.key := by rw [← h, topNibble_keyOf]
    rw [← ht, ← keyOf_eq_mask, h]

/-! ## The selected row -/

/-- The keys of the table are pairwise distinct. -/
theorem keys_nodup : (opcodeTable.map Row.key).Nodup := by decide

theorem find_row {rows : List Row} (hn : (rows.map Row.key).Nodup) {r : Row} (hr : r ∈ rows) :
    rows.find? (fun q => q.key == r.key) = some r := by
  induction rows with
  | nil => cases hr
  | cons q rows ih =>
    rw [List.map_cons, List.nodup_cons] at hn
    rcases List.mem_cons.1 hr with rfl | hr
    · simp
    · have hne : q.key ≠ r.key := fun e => hn.1 (e ▸ List.mem_map.2 ⟨r, hr, rfl⟩)
      rw [List.find?_cons_of_neg (by simpa using hne), ih hn.2 hr]

/-- The decoder answers the row of the opcode's key. -/
theorem decode_of_key {op : Word} {r : Row} (hr : r ∈ opcodeTable) (h : keyOf op = r.key) :
    decode op = .ok (r.build op) := by
  unfold decode; rw [h, find_row keys_nodup hr]

/-- The decoder answers the row that mask and match select. -/
theorem decode_of_match {op : Word} {r : Row} (hr : r ∈ opcodeTable) (h : op &&& r.mask = r.key) :
    decode op = .ok (r.build op) :=
  decode_of_key hr ((match_iff_key op hr).1 h)

/-- What the decoder can answer: a row of the table with the opcode's key, or the name of the
unassigned key. -/
theorem decode_cases (op : Word) :
    (∃ r ∈ opcodeTable, keyOf op = r.key ∧ decode op = .ok (r.build op)) ∨
    ((∀ r ∈ opcodeTable, r.key ≠ keyOf op) ∧ decode op = .error (.unassigned (keyOf op))) := by
  cases hf : opcodeTable.find? (fun r => r.key == keyOf op) with
  | some r =>
    refine .inl ⟨r, List.mem_of_find?_eq_some hf, ?_, ?_⟩
    · exact (beq_iff_eq.1 (List.find?_some (p := fun r : Row => r.key == keyOf op) hf)).symm
    · unfold decode; rw [hf]
  | none =>
    refine .inr ⟨fun r hr => ?_, ?_⟩
    · have := List.find?_eq_none.1 hf r hr; simpa using this
    · unfold decode; rw [hf]

/-! ## Fields -/

theorem fieldX_eq_num (op : Word) : fieldX op = Machine.numX op := by
  apply BitVec.eq_of_toNat_eq
  simp [fieldX, Machine.numX, Nat.shiftRight_eq_div_pow]

theorem fieldY_eq_num (op : Word) : fieldY op = Machine.numY op := by
  apply BitVec.eq_of_toNat_eq
  simp [fieldY, Machine.numY, Nat.shiftRight_eq_div_pow]

theorem fieldN_eq_num (op : Word) : fieldN op = Machine.numN op := by
  apply BitVec.eq_of_toNat_eq
  simp [fieldN, Machine.numN]

theorem fieldKK_eq_num (op : Word) : fieldKK op = Machine.numKK op := by
  apply BitVec.eq_of_toNat_eq
  simp [fieldKK, Machine.numKK]

theorem fieldNNN_eq_num (op : Word) : fieldNNN op = Machine.numNNN op := by
  apply BitVec.eq_of_toNat_eq
  simp [fieldNNN, Machine.numNNN]

/-! ## Encoded operands (spec 30 R53) -/

/-- Fixed bits that an encoded operand tuple may not touch: all but the operand bits of its shape. -/
def Shape.fixedMask : Shape → Word
  | .none | .x => 0xF0FF#16
  | .xy => 0xF00F#16
  | .xkk | .xyn | .nnn => 0xF000#16

theorem getLsbD_placeAt (v lo i : Nat) :
    (placeAt v lo).getLsbD i = (decide (i < 16) && decide (lo ≤ i) && v.testBit (i - lo)) := by
  unfold placeAt
  rw [BitVec.getLsbD_shiftLeft]
  by_cases h : i < 16
  · by_cases h2 : i < lo
    · simp [h, h2]
    · have h3 : i - lo < 16 := by omega
      have h4 : lo ≤ i := by omega
      simp [h, h2, h3, h4, -BitVec.getLsbD_eq_getElem, BitVec.getLsbD_ofNat]
  · simp [h]

/-- A number below `2 ^ n` has no bit from `n` on. -/
theorem testBit_of_lt {v n i : Nat} (h : v < 2 ^ n) (hi : n ≤ i) : v.testBit i = false :=
  Nat.testBit_lt_two_pow (lt_of_lt_of_le h (Nat.pow_le_pow_right (by decide) hi))

/-- A well-formed operand tuple leaves the fixed bits of its shape alone. -/
theorem encodeOperands_and_fixedMask (ops : Operands) (h : ops.wellFormed = true) :
    encodeOperands ops &&& ops.shape.fixedMask = 0#16 := by
  apply BitVec.eq_of_getLsbD_eq
  intro i hi
  cases ops <;> simp only [Operands.wellFormed, Bool.and_eq_true, decide_eq_true_eq] at h <;>
    simp only [encodeOperands, Operands.shape, Shape.fixedMask, BitVec.getLsbD_and,
      BitVec.getLsbD_or, getLsbD_placeAt, BitVec.getLsbD_zero] <;>
    interval_cases i <;> simp [testBit_of_lt (n := 4), testBit_of_lt (n := 8), testBit_of_lt (n := 12), h]

/-- The fixed bits of an instruction's pattern are its row's key, in the fixed bits of its shape. -/
theorem fixedBits_and_fixedMask (i : Instr) :
    i.fixedBits &&& i.operands.shape.fixedMask = i.fixedBits := by
  cases i <;> simp only [Instr.fixedBits, Instr.operands, Operands.shape, Shape.fixedMask] <;> decide

/-- Operands ORed into a pattern of their shape leave its fixed bits as they are. -/
theorem encoded_and_fixedMask (i : Instr) (ops : Operands) (h : ops.wellFormed = true)
    (hs : ops.shape = i.operands.shape) :
    (i.fixedBits ||| encodeOperands ops) &&& i.operands.shape.fixedMask = i.fixedBits := by
  have h0 := encodeOperands_and_fixedMask ops h
  rw [hs, BitVec.and_comm] at h0
  rw [BitVec.and_comm, BitVec.and_or_distrib_left, h0, BitVec.or_zero, BitVec.and_comm,
    fixedBits_and_fixedMask]

/-- The fixed bits of a shape and the mask of the key's top nibble select the same bits. -/
theorem fixedMask_eq_maskFor (i : Instr) :
    i.operands.shape.fixedMask = maskFor (topNibble i.fixedBits) := by
  cases i <;> simp only [Instr.fixedBits, Instr.operands, Operands.shape, Shape.fixedMask] <;> decide

/-- The classifier gives operands ORed into a row's pattern that row's key (spec 30 R53, R54). -/
theorem keyOf_encoded (i : Instr) (ops : Operands) (h : ops.wellFormed = true)
    (hs : ops.shape = i.operands.shape) :
    keyOf (i.fixedBits ||| encodeOperands ops) = i.fixedBits := by
  have hm := encoded_and_fixedMask i ops h hs
  rw [fixedMask_eq_maskFor] at hm
  have ht : topNibble (i.fixedBits ||| encodeOperands ops) = topNibble i.fixedBits := by
    have := and_narrow hm (maskFor_and _)
    rw [← topNibble_and_mask (i.fixedBits ||| encodeOperands ops), this, topNibble_and_mask]
  rw [keyOf_eq_mask, ht, hm]

/-- The classifier gives an encoded instruction its row's key (spec 30 R54). -/
theorem keyOf_encode (i : Instr) : keyOf (encode i) = i.fixedBits :=
  keyOf_encoded i i.operands (wellFormed_instr i) rfl

/-! ## Words as bytes (spec 20 R34, R35) -/

@[simp] theorem wordOfBytes_high_low (w : Word) : wordOfBytes (highByte w) (lowByte w) = w := by
  apply BitVec.eq_of_getLsbD_eq
  intro i hi
  unfold wordOfBytes highByte lowByte
  rw [BitVec.getLsbD_append]
  by_cases h : i < 8
  · simp [h]
  · have h2 : i - 8 < 8 := by omega
    have h3 : 8 + (i - 8) = i := by omega
    simp [h, h2, h3]

theorem toNat_wordOfBytes (hi lo : Byte) :
    (wordOfBytes hi lo).toNat = 256 * hi.toNat + lo.toNat := by
  have := lo.isLt
  unfold wordOfBytes
  rw [BitVec.toNat_append, Nat.shiftLeft_eq, Nat.mul_comm, ← Nat.two_pow_add_eq_or_of_lt this]

theorem toNat_highByte (w : Word) : (highByte w).toNat = w.toNat / 256 := by
  have := w.isLt
  simp [highByte, Nat.shiftRight_eq_div_pow]; omega

theorem toNat_lowByte (w : Word) : (lowByte w).toNat = w.toNat % 256 := by
  simp [lowByte]

/-- What the decoder reads from an instruction's word it reads from its bytes, with none left. -/
theorem decodeBytes_encodeBytes {i j : Instr} (h : decode (encode i) = .ok j) :
    decodeBytes (encodeBytes i) = .ok (j, []) := by
  simp [decodeBytes, encodeBytes, bytesOfWord, h]

end Sys2Proof
end

