-- ==== Sys2Proof/Laws/Memory.lean ====
section
/-! SUPPORT. The laws of memory: a read after a write, the bulk writes read back, and that every
memory operation keeps the canonical form (`Memory.wf`). -/

namespace Sys2Proof.Machine

/-! ## The listing -/

@[simp] theorem lookup_nil (a : Nat) : Memory.lookup [] a = none := rfl

theorem lookup_cons (k : Nat) (v : Byte) (m : Memory) (a : Nat) :
    Memory.lookup ((k, v) :: m) a = if a = k then some v else Memory.lookup m a := rfl

theorem erase_cons (k : Nat) (v : Byte) (m : Memory) (a : Nat) :
    Memory.erase ((k, v) :: m) a = if k = a then m.erase a else (k, v) :: m.erase a := by
  by_cases h : k = a <;> simp [Memory.erase, h]

theorem place_cons (k : Nat) (v : Byte) (m : Memory) (a : Nat) (b : Byte) :
    Memory.place ((k, v) :: m) a b =
      if a < k then (a, b) :: (k, v) :: m else (k, v) :: Memory.place m a b := rfl

theorem lookup_erase (m : Memory) (a c : Nat) :
    (m.erase a).lookup c = if c = a then none else m.lookup c := by
  induction m with
  | nil => simp [Memory.erase]
  | cons e m ih =>
    obtain ⟨k, v⟩ := e
    rw [erase_cons, lookup_cons]
    by_cases hk : k = a
    · rw [if_pos hk, ih]; split_ifs <;> simp_all
    · rw [if_neg hk, lookup_cons, ih]; split_ifs <;> simp_all

theorem lookup_place (m : Memory) (a : Nat) (b : Byte) (c : Nat) (h : m.lookup a = none) :
    (m.place a b).lookup c = if c = a then some b else m.lookup c := by
  induction m with
  | nil => simp [Memory.place, lookup_cons]
  | cons e m ih =>
    obtain ⟨k, v⟩ := e
    rw [lookup_cons] at h
    rw [place_cons]
    by_cases hk : a = k
    · simp [hk] at h
    · rw [if_neg hk] at h
      by_cases hlt : a < k
      · rw [if_pos hlt, lookup_cons]
      · rw [if_neg hlt, lookup_cons, lookup_cons, ih h]; split_ifs <;> simp_all

theorem lookup_insert (m : Memory) (a : Nat) (b : Byte) (c : Nat) :
    (m.insert a b).lookup c =
      if c = a then (if b = Memory.background a then none else some b) else m.lookup c := by
  unfold Memory.insert
  split
  · rw [lookup_erase]
  · rw [lookup_place _ _ _ _ (by simp [lookup_erase]), lookup_erase]; split_ifs <;> rfl

/-! ## One byte (spec 20 R31 to R33) -/

@[simp] theorem wrap_lt (a : Nat) : Memory.wrap a < 4096 := Nat.mod_lt _ (by decide)

@[simp] theorem wrap_wrap (a : Nat) : Memory.wrap (Memory.wrap a) = Memory.wrap a :=
  Nat.mod_mod a 4096

@[simp] theorem read_wrap (m : Memory) (a : Nat) : m.read (Memory.wrap a) = m.read a := by
  simp [Memory.read]

@[simp] theorem read_nil (a : Nat) : Memory.read [] a = Memory.background (Memory.wrap a) := rfl

/-- Everything a byte write does to the reads. -/
theorem read_write (m : Memory) (a : Nat) (b : Byte) (c : Nat) :
    (m.write a b).read c = if Memory.wrap c = Memory.wrap a then b else m.read c := by
  simp only [Memory.read, Memory.write, lookup_insert]
  by_cases h : Memory.wrap c = Memory.wrap a
  · rw [if_pos h, if_pos h, h]; split <;> simp_all
  · rw [if_neg h, if_neg h]

theorem read_write_same (m : Memory) (a : Nat) (b : Byte) : (m.write a b).read a = b := by
  simp [read_write]

theorem read_write_other (m : Memory) (a : Nat) (b : Byte) (c : Nat)
    (h : Memory.wrap c ≠ Memory.wrap a) : (m.write a b).read c = m.read c := by
  simp [read_write, h]

/-! ## Bytes and words in bulk (spec 20 R36, R38) -/

theorem writeBytes_append (m : Memory) (a : Nat) (bs cs : List Byte) :
    m.writeBytes a (bs ++ cs) = (m.writeBytes a bs).writeBytes (a + bs.length) cs := by
  induction bs generalizing m a with
  | nil => rfl
  | cons b bs ih => simp [Memory.writeBytes, ih, Nat.add_assoc, Nat.add_comm 1]

/-- The words of a bulk word store are one bulk byte store of their bytes. -/
theorem writeWords_eq (m : Memory) (a : Nat) (ws : List Word) (e : Endian) :
    m.writeWords a ws e = m.writeBytes a (ws.flatMap (wordBytes e)) := by
  induction ws generalizing m a with
  | nil => rfl
  | cons w ws ih =>
    have h : (wordBytes e w).length = 2 := by cases e <;> rfl
    simp [Memory.writeWords, ih, writeBytes_append, h]

/-- A bulk write leaves every address outside the slice alone. -/
theorem read_writeBytes_other (m : Memory) (a : Nat) (bs : List Byte) (c : Nat)
    (h : ∀ i < bs.length, Memory.wrap c ≠ Memory.wrap (a + i)) :
    (m.writeBytes a bs).read c = m.read c := by
  induction bs generalizing m a with
  | nil => rfl
  | cons b bs ih =>
    have h0 : Memory.wrap c ≠ Memory.wrap a := h 0 (by simp)
    rw [Memory.writeBytes, ih, read_write_other _ _ _ _ h0]
    intro i hi
    have := h (i + 1) (by simpa using hi)
    rwa [Nat.add_assoc, Nat.add_comm 1]

theorem wrap_add_inj {a i j : Nat} (hi : i < 4096) (hj : j < 4096)
    (h : Memory.wrap (a + i) = Memory.wrap (a + j)) : i = j := by
  unfold Memory.wrap at h; omega

/-- A slice of at most 4096 bytes is read back whole. -/
theorem read_writeBytes (m : Memory) (a : Nat) (bs : List Byte) (hlen : bs.length ≤ 4096)
    (i : Nat) (h : i < bs.length) : (m.writeBytes a bs).read (a + i) = bs[i] := by
  induction bs generalizing m a i with
  | nil => simp at h
  | cons b bs ih =>
    rw [Memory.writeBytes]
    cases i with
    | zero =>
      rw [read_writeBytes_other, Nat.add_zero, read_write_same]; · rfl
      intro j hj heq
      have hlen' : bs.length + 1 ≤ 4096 := by simpa using hlen
      rw [Nat.add_assoc] at heq
      have := wrap_add_inj (by omega) (by omega) heq
      omega
    | succ i =>
      have := ih (m.write a b) (a + 1) (by simp at hlen; omega) i (by simpa using h)
      rw [Nat.add_assoc, Nat.add_comm 1] at this
      simpa using this

/-! ## The canonical form is kept -/

theorem mem_place {m : Memory} {a : Nat} {b : Byte} {c : Host.Cell} :
    c ∈ m.place a b ↔ c = (a, b) ∨ c ∈ m := by
  induction m with
  | nil => simp [Memory.place]
  | cons e m ih =>
    obtain ⟨k, v⟩ := e
    rw [place_cons]
    split <;> simp [ih, or_left_comm]

theorem pairwise_place {m : Memory} {a : Nat} {b : Byte}
    (hm : m.Pairwise (fun p q => p.1 < q.1)) (ha : ∀ c ∈ m, c.1 ≠ a) :
    (m.place a b).Pairwise (fun p q => p.1 < q.1) := by
  induction m with
  | nil => simp [Memory.place]
  | cons e m ih =>
    obtain ⟨k, v⟩ := e
    rw [List.pairwise_cons] at hm
    rw [place_cons]
    split
    · rename_i hlt
      refine List.pairwise_cons.2 ⟨?_, List.pairwise_cons.2 hm⟩
      intro c hc
      rcases List.mem_cons.1 hc with rfl | hc
      · exact hlt
      · exact lt_trans hlt (hm.1 c hc)
    · rename_i hlt
      refine List.pairwise_cons.2 ⟨?_, ih hm.2 fun c hc => ha c (List.mem_cons_of_mem _ hc)⟩
      intro c hc
      rcases mem_place.1 hc with rfl | hc
      · have := ha (k, v) (by simp)
        simp at this ⊢
        omega
      · exact hm.1 c hc

theorem erase_wf {m : Memory} (h : m.wf) (a : Nat) : (m.erase a).wf :=
  ⟨h.1.filter _, fun c hc => h.2 c (List.mem_of_mem_filter hc)⟩

theorem insert_wf {m : Memory} (h : m.wf) {a : Nat} (ha : a < 4096) (b : Byte) :
    (m.insert a b).wf := by
  have he := erase_wf h a
  unfold Memory.insert
  split
  · exact he
  · rename_i hb
    refine ⟨pairwise_place he.1 fun c hc => ?_, fun c hc => ?_⟩
    · simpa using (List.mem_filter.1 hc).2
    · rcases mem_place.1 hc with rfl | hc
      · exact ⟨ha, hb⟩
      · exact he.2 c hc

/-- Every byte write keeps the canonical form. -/
theorem write_wf {m : Memory} (h : m.wf) (a : Nat) (b : Byte) : (m.write a b).wf :=
  insert_wf h (wrap_lt a) b

/-- Every bulk byte write keeps the canonical form. -/
theorem writeBytes_wf {m : Memory} (h : m.wf) (a : Nat) (bs : List Byte) :
    (m.writeBytes a bs).wf := by
  induction bs generalizing m a with
  | nil => exact h
  | cons b bs ih => exact ih (write_wf h a b) (a + 1)

/-- Every bulk word write keeps the canonical form. -/
theorem writeWords_wf {m : Memory} (h : m.wf) (a : Nat) (ws : List Word) (e : Endian) :
    (m.writeWords a ws e).wf := by
  rw [writeWords_eq]; exact writeBytes_wf h a _

/-- The power-on memory is in canonical form. -/
theorem reset_mem_wf : State.reset.mem.wf := by decide

end Sys2Proof.Machine
end

