-- ==== Sys2Proof/Laws/State.lean ====
section
/-! SUPPORT. One lemma per field per update of State, true by rfl, and for the operations that may
leave the state alone or that loop (skip, push, pop, block load and store, key poll) what they leave
unchanged. No later proof unfolds a record update. -/

namespace Sys2Proof.Machine

variable (s : State)

/-! ## writeV -/

@[simp] theorem writeV_V (x : Nibble) (b : Byte) : (s.writeV x b).V = s.V.set x.toNat b x.isLt := rfl
@[simp] theorem writeV_PC (x : Nibble) (b : Byte) : (s.writeV x b).PC = s.PC := rfl
@[simp] theorem writeV_I (x : Nibble) (b : Byte) : (s.writeV x b).I = s.I := rfl
@[simp] theorem writeV_SP (x : Nibble) (b : Byte) : (s.writeV x b).SP = s.SP := rfl
@[simp] theorem writeV_stack (x : Nibble) (b : Byte) : (s.writeV x b).stack = s.stack := rfl
@[simp] theorem writeV_DT (x : Nibble) (b : Byte) : (s.writeV x b).DT = s.DT := rfl
@[simp] theorem writeV_ST (x : Nibble) (b : Byte) : (s.writeV x b).ST = s.ST := rfl
@[simp] theorem writeV_rng (x : Nibble) (b : Byte) : (s.writeV x b).rng = s.rng := rfl
@[simp] theorem writeV_mem (x : Nibble) (b : Byte) : (s.writeV x b).mem = s.mem := rfl
@[simp] theorem writeV_fb (x : Nibble) (b : Byte) : (s.writeV x b).fb = s.fb := rfl
@[simp] theorem writeV_key (x : Nibble) (b : Byte) : (s.writeV x b).key = s.key := rfl
@[simp] theorem writeV_wait (x : Nibble) (b : Byte) : (s.writeV x b).wait = s.wait := rfl
@[simp] theorem writeV_anchor3 (x : Nibble) (b : Byte) : (s.writeV x b).anchor3 = s.anchor3 := rfl
@[simp] theorem writeV_nowMs (x : Nibble) (b : Byte) : (s.writeV x b).nowMs = s.nowMs := rfl
@[simp] theorem writeV_pending (x : Nibble) (b : Byte) : (s.writeV x b).pending = s.pending := rfl

/-! ## setPC -/

@[simp] theorem setPC_V (w : Word) : (s.setPC w).V = s.V := rfl
@[simp] theorem setPC_PC (w : Word) : (s.setPC w).PC = w := rfl
@[simp] theorem setPC_I (w : Word) : (s.setPC w).I = s.I := rfl
@[simp] theorem setPC_SP (w : Word) : (s.setPC w).SP = s.SP := rfl
@[simp] theorem setPC_stack (w : Word) : (s.setPC w).stack = s.stack := rfl
@[simp] theorem setPC_DT (w : Word) : (s.setPC w).DT = s.DT := rfl
@[simp] theorem setPC_ST (w : Word) : (s.setPC w).ST = s.ST := rfl
@[simp] theorem setPC_rng (w : Word) : (s.setPC w).rng = s.rng := rfl
@[simp] theorem setPC_mem (w : Word) : (s.setPC w).mem = s.mem := rfl
@[simp] theorem setPC_fb (w : Word) : (s.setPC w).fb = s.fb := rfl
@[simp] theorem setPC_key (w : Word) : (s.setPC w).key = s.key := rfl
@[simp] theorem setPC_wait (w : Word) : (s.setPC w).wait = s.wait := rfl
@[simp] theorem setPC_anchor3 (w : Word) : (s.setPC w).anchor3 = s.anchor3 := rfl
@[simp] theorem setPC_nowMs (w : Word) : (s.setPC w).nowMs = s.nowMs := rfl
@[simp] theorem setPC_pending (w : Word) : (s.setPC w).pending = s.pending := rfl

/-! ## advancePC -/

@[simp] theorem advancePC_V : (s.advancePC).V = s.V := rfl
@[simp] theorem advancePC_PC : (s.advancePC).PC = s.PC + 2#16 := rfl
@[simp] theorem advancePC_I : (s.advancePC).I = s.I := rfl
@[simp] theorem advancePC_SP : (s.advancePC).SP = s.SP := rfl
@[simp] theorem advancePC_stack : (s.advancePC).stack = s.stack := rfl
@[simp] theorem advancePC_DT : (s.advancePC).DT = s.DT := rfl
@[simp] theorem advancePC_ST : (s.advancePC).ST = s.ST := rfl
@[simp] theorem advancePC_rng : (s.advancePC).rng = s.rng := rfl
@[simp] theorem advancePC_mem : (s.advancePC).mem = s.mem := rfl
@[simp] theorem advancePC_fb : (s.advancePC).fb = s.fb := rfl
@[simp] theorem advancePC_key : (s.advancePC).key = s.key := rfl
@[simp] theorem advancePC_wait : (s.advancePC).wait = s.wait := rfl
@[simp] theorem advancePC_anchor3 : (s.advancePC).anchor3 = s.anchor3 := rfl
@[simp] theorem advancePC_nowMs : (s.advancePC).nowMs = s.nowMs := rfl
@[simp] theorem advancePC_pending : (s.advancePC).pending = s.pending := rfl

/-! ## setI -/

@[simp] theorem setI_V (w : Word) : (s.setI w).V = s.V := rfl
@[simp] theorem setI_PC (w : Word) : (s.setI w).PC = s.PC := rfl
@[simp] theorem setI_I (w : Word) : (s.setI w).I = w := rfl
@[simp] theorem setI_SP (w : Word) : (s.setI w).SP = s.SP := rfl
@[simp] theorem setI_stack (w : Word) : (s.setI w).stack = s.stack := rfl
@[simp] theorem setI_DT (w : Word) : (s.setI w).DT = s.DT := rfl
@[simp] theorem setI_ST (w : Word) : (s.setI w).ST = s.ST := rfl
@[simp] theorem setI_rng (w : Word) : (s.setI w).rng = s.rng := rfl
@[simp] theorem setI_mem (w : Word) : (s.setI w).mem = s.mem := rfl
@[simp] theorem setI_fb (w : Word) : (s.setI w).fb = s.fb := rfl
@[simp] theorem setI_key (w : Word) : (s.setI w).key = s.key := rfl
@[simp] theorem setI_wait (w : Word) : (s.setI w).wait = s.wait := rfl
@[simp] theorem setI_anchor3 (w : Word) : (s.setI w).anchor3 = s.anchor3 := rfl
@[simp] theorem setI_nowMs (w : Word) : (s.setI w).nowMs = s.nowMs := rfl
@[simp] theorem setI_pending (w : Word) : (s.setI w).pending = s.pending := rfl

/-! ## setDT -/

@[simp] theorem setDT_V (b : Byte) : (s.setDT b).V = s.V := rfl
@[simp] theorem setDT_PC (b : Byte) : (s.setDT b).PC = s.PC := rfl
@[simp] theorem setDT_I (b : Byte) : (s.setDT b).I = s.I := rfl
@[simp] theorem setDT_SP (b : Byte) : (s.setDT b).SP = s.SP := rfl
@[simp] theorem setDT_stack (b : Byte) : (s.setDT b).stack = s.stack := rfl
@[simp] theorem setDT_DT (b : Byte) : (s.setDT b).DT = b := rfl
@[simp] theorem setDT_ST (b : Byte) : (s.setDT b).ST = s.ST := rfl
@[simp] theorem setDT_rng (b : Byte) : (s.setDT b).rng = s.rng := rfl
@[simp] theorem setDT_mem (b : Byte) : (s.setDT b).mem = s.mem := rfl
@[simp] theorem setDT_fb (b : Byte) : (s.setDT b).fb = s.fb := rfl
@[simp] theorem setDT_key (b : Byte) : (s.setDT b).key = s.key := rfl
@[simp] theorem setDT_wait (b : Byte) : (s.setDT b).wait = s.wait := rfl
@[simp] theorem setDT_anchor3 (b : Byte) : (s.setDT b).anchor3 = s.anchor3 := rfl
@[simp] theorem setDT_nowMs (b : Byte) : (s.setDT b).nowMs = s.nowMs := rfl
@[simp] theorem setDT_pending (b : Byte) : (s.setDT b).pending = s.pending := rfl

/-! ## setRng -/

@[simp] theorem setRng_V (w : RngState) : (s.setRng w).V = s.V := rfl
@[simp] theorem setRng_PC (w : RngState) : (s.setRng w).PC = s.PC := rfl
@[simp] theorem setRng_I (w : RngState) : (s.setRng w).I = s.I := rfl
@[simp] theorem setRng_SP (w : RngState) : (s.setRng w).SP = s.SP := rfl
@[simp] theorem setRng_stack (w : RngState) : (s.setRng w).stack = s.stack := rfl
@[simp] theorem setRng_DT (w : RngState) : (s.setRng w).DT = s.DT := rfl
@[simp] theorem setRng_ST (w : RngState) : (s.setRng w).ST = s.ST := rfl
@[simp] theorem setRng_rng (w : RngState) : (s.setRng w).rng = w := rfl
@[simp] theorem setRng_mem (w : RngState) : (s.setRng w).mem = s.mem := rfl
@[simp] theorem setRng_fb (w : RngState) : (s.setRng w).fb = s.fb := rfl
@[simp] theorem setRng_key (w : RngState) : (s.setRng w).key = s.key := rfl
@[simp] theorem setRng_wait (w : RngState) : (s.setRng w).wait = s.wait := rfl
@[simp] theorem setRng_anchor3 (w : RngState) : (s.setRng w).anchor3 = s.anchor3 := rfl
@[simp] theorem setRng_nowMs (w : RngState) : (s.setRng w).nowMs = s.nowMs := rfl
@[simp] theorem setRng_pending (w : RngState) : (s.setRng w).pending = s.pending := rfl

/-! ## setFB -/

@[simp] theorem setFB_V (w : Framebuffer) : (s.setFB w).V = s.V := rfl
@[simp] theorem setFB_PC (w : Framebuffer) : (s.setFB w).PC = s.PC := rfl
@[simp] theorem setFB_I (w : Framebuffer) : (s.setFB w).I = s.I := rfl
@[simp] theorem setFB_SP (w : Framebuffer) : (s.setFB w).SP = s.SP := rfl
@[simp] theorem setFB_stack (w : Framebuffer) : (s.setFB w).stack = s.stack := rfl
@[simp] theorem setFB_DT (w : Framebuffer) : (s.setFB w).DT = s.DT := rfl
@[simp] theorem setFB_ST (w : Framebuffer) : (s.setFB w).ST = s.ST := rfl
@[simp] theorem setFB_rng (w : Framebuffer) : (s.setFB w).rng = s.rng := rfl
@[simp] theorem setFB_mem (w : Framebuffer) : (s.setFB w).mem = s.mem := rfl
@[simp] theorem setFB_fb (w : Framebuffer) : (s.setFB w).fb = w := rfl
@[simp] theorem setFB_key (w : Framebuffer) : (s.setFB w).key = s.key := rfl
@[simp] theorem setFB_wait (w : Framebuffer) : (s.setFB w).wait = s.wait := rfl
@[simp] theorem setFB_anchor3 (w : Framebuffer) : (s.setFB w).anchor3 = s.anchor3 := rfl
@[simp] theorem setFB_nowMs (w : Framebuffer) : (s.setFB w).nowMs = s.nowMs := rfl
@[simp] theorem setFB_pending (w : Framebuffer) : (s.setFB w).pending = s.pending := rfl

/-! ## setST -/

@[simp] theorem setST_V (b : Byte) : (s.setST b).V = s.V := rfl
@[simp] theorem setST_PC (b : Byte) : (s.setST b).PC = s.PC := rfl
@[simp] theorem setST_I (b : Byte) : (s.setST b).I = s.I := rfl
@[simp] theorem setST_SP (b : Byte) : (s.setST b).SP = s.SP := rfl
@[simp] theorem setST_stack (b : Byte) : (s.setST b).stack = s.stack := rfl
@[simp] theorem setST_DT (b : Byte) : (s.setST b).DT = s.DT := rfl
@[simp] theorem setST_ST (b : Byte) : (s.setST b).ST = b := rfl
@[simp] theorem setST_rng (b : Byte) : (s.setST b).rng = s.rng := rfl
@[simp] theorem setST_mem (b : Byte) : (s.setST b).mem = s.mem := rfl
@[simp] theorem setST_fb (b : Byte) : (s.setST b).fb = s.fb := rfl
@[simp] theorem setST_key (b : Byte) : (s.setST b).key = s.key := rfl
@[simp] theorem setST_wait (b : Byte) : (s.setST b).wait = s.wait := rfl
@[simp] theorem setST_anchor3 (b : Byte) : (s.setST b).anchor3 = s.anchor3 := rfl
@[simp] theorem setST_nowMs (b : Byte) : (s.setST b).nowMs = s.nowMs := rfl
@[simp] theorem setST_pending (b : Byte) : (s.setST b).pending = s.pending := rfl

/-! ## setWait -/

@[simp] theorem setWait_V (w : Wait) : (s.setWait w).V = s.V := rfl
@[simp] theorem setWait_PC (w : Wait) : (s.setWait w).PC = s.PC := rfl
@[simp] theorem setWait_I (w : Wait) : (s.setWait w).I = s.I := rfl
@[simp] theorem setWait_SP (w : Wait) : (s.setWait w).SP = s.SP := rfl
@[simp] theorem setWait_stack (w : Wait) : (s.setWait w).stack = s.stack := rfl
@[simp] theorem setWait_DT (w : Wait) : (s.setWait w).DT = s.DT := rfl
@[simp] theorem setWait_ST (w : Wait) : (s.setWait w).ST = s.ST := rfl
@[simp] theorem setWait_rng (w : Wait) : (s.setWait w).rng = s.rng := rfl
@[simp] theorem setWait_mem (w : Wait) : (s.setWait w).mem = s.mem := rfl
@[simp] theorem setWait_fb (w : Wait) : (s.setWait w).fb = s.fb := rfl
@[simp] theorem setWait_key (w : Wait) : (s.setWait w).key = s.key := rfl
@[simp] theorem setWait_wait (w : Wait) : (s.setWait w).wait = w := rfl
@[simp] theorem setWait_anchor3 (w : Wait) : (s.setWait w).anchor3 = s.anchor3 := rfl
@[simp] theorem setWait_nowMs (w : Wait) : (s.setWait w).nowMs = s.nowMs := rfl
@[simp] theorem setWait_pending (w : Wait) : (s.setWait w).pending = s.pending := rfl

/-! ## storeByte -/

@[simp] theorem storeByte_V (a : Nat) (b : Byte) : (s.storeByte a b).V = s.V := rfl
@[simp] theorem storeByte_PC (a : Nat) (b : Byte) : (s.storeByte a b).PC = s.PC := rfl
@[simp] theorem storeByte_I (a : Nat) (b : Byte) : (s.storeByte a b).I = s.I := rfl
@[simp] theorem storeByte_SP (a : Nat) (b : Byte) : (s.storeByte a b).SP = s.SP := rfl
@[simp] theorem storeByte_stack (a : Nat) (b : Byte) : (s.storeByte a b).stack = s.stack := rfl
@[simp] theorem storeByte_DT (a : Nat) (b : Byte) : (s.storeByte a b).DT = s.DT := rfl
@[simp] theorem storeByte_ST (a : Nat) (b : Byte) : (s.storeByte a b).ST = s.ST := rfl
@[simp] theorem storeByte_rng (a : Nat) (b : Byte) : (s.storeByte a b).rng = s.rng := rfl
@[simp] theorem storeByte_mem (a : Nat) (b : Byte) : (s.storeByte a b).mem = s.mem.write a b := rfl
@[simp] theorem storeByte_fb (a : Nat) (b : Byte) : (s.storeByte a b).fb = s.fb := rfl
@[simp] theorem storeByte_key (a : Nat) (b : Byte) : (s.storeByte a b).key = s.key := rfl
@[simp] theorem storeByte_wait (a : Nat) (b : Byte) : (s.storeByte a b).wait = s.wait := rfl
@[simp] theorem storeByte_anchor3 (a : Nat) (b : Byte) : (s.storeByte a b).anchor3 = s.anchor3 := rfl
@[simp] theorem storeByte_nowMs (a : Nat) (b : Byte) : (s.storeByte a b).nowMs = s.nowMs := rfl
@[simp] theorem storeByte_pending (a : Nat) (b : Byte) : (s.storeByte a b).pending = s.pending := rfl

/-! ## applyTicks -/

@[simp] theorem applyTicks_V (n : Nat) : (s.applyTicks n).V = s.V := rfl
@[simp] theorem applyTicks_PC (n : Nat) : (s.applyTicks n).PC = s.PC := rfl
@[simp] theorem applyTicks_I (n : Nat) : (s.applyTicks n).I = s.I := rfl
@[simp] theorem applyTicks_SP (n : Nat) : (s.applyTicks n).SP = s.SP := rfl
@[simp] theorem applyTicks_stack (n : Nat) : (s.applyTicks n).stack = s.stack := rfl
@[simp] theorem applyTicks_DT (n : Nat) : (s.applyTicks n).DT = countDown s.DT n := rfl
@[simp] theorem applyTicks_ST (n : Nat) : (s.applyTicks n).ST = countDown s.ST n := rfl
@[simp] theorem applyTicks_rng (n : Nat) : (s.applyTicks n).rng = s.rng := rfl
@[simp] theorem applyTicks_mem (n : Nat) : (s.applyTicks n).mem = s.mem := rfl
@[simp] theorem applyTicks_fb (n : Nat) : (s.applyTicks n).fb = s.fb := rfl
@[simp] theorem applyTicks_key (n : Nat) : (s.applyTicks n).key = s.key := rfl
@[simp] theorem applyTicks_wait (n : Nat) : (s.applyTicks n).wait = s.wait := rfl
@[simp] theorem applyTicks_anchor3 (n : Nat) : (s.applyTicks n).anchor3 = s.anchor3 + Config.tickPeriod3 * n := rfl
@[simp] theorem applyTicks_nowMs (n : Nat) : (s.applyTicks n).nowMs = s.nowMs := rfl
@[simp] theorem applyTicks_pending (n : Nat) : (s.applyTicks n).pending = s.pending := rfl

/-! ## presentTime -/

@[simp] theorem presentTime_V (now : Nat) : (s.presentTime now).V = s.V := rfl
@[simp] theorem presentTime_PC (now : Nat) : (s.presentTime now).PC = s.PC := rfl
@[simp] theorem presentTime_I (now : Nat) : (s.presentTime now).I = s.I := rfl
@[simp] theorem presentTime_SP (now : Nat) : (s.presentTime now).SP = s.SP := rfl
@[simp] theorem presentTime_stack (now : Nat) : (s.presentTime now).stack = s.stack := rfl
@[simp] theorem presentTime_DT (now : Nat) : (s.presentTime now).DT = s.DT := rfl
@[simp] theorem presentTime_ST (now : Nat) : (s.presentTime now).ST = s.ST := rfl
@[simp] theorem presentTime_rng (now : Nat) : (s.presentTime now).rng = s.rng := rfl
@[simp] theorem presentTime_mem (now : Nat) : (s.presentTime now).mem = s.mem := rfl
@[simp] theorem presentTime_fb (now : Nat) : (s.presentTime now).fb = s.fb := rfl
@[simp] theorem presentTime_key (now : Nat) : (s.presentTime now).key = s.key := rfl
@[simp] theorem presentTime_wait (now : Nat) : (s.presentTime now).wait = s.wait := rfl
@[simp] theorem presentTime_anchor3 (now : Nat) : (s.presentTime now).anchor3 = s.anchor3 := rfl
@[simp] theorem presentTime_nowMs (now : Nat) : (s.presentTime now).nowMs = now := rfl
@[simp] theorem presentTime_pending (now : Nat) : (s.presentTime now).pending = s.pending := rfl

/-! ## setKey -/

@[simp] theorem setKey_V (k : Nibble) (p : Bool) : (s.setKey k p).V = s.V := rfl
@[simp] theorem setKey_PC (k : Nibble) (p : Bool) : (s.setKey k p).PC = s.PC := rfl
@[simp] theorem setKey_I (k : Nibble) (p : Bool) : (s.setKey k p).I = s.I := rfl
@[simp] theorem setKey_SP (k : Nibble) (p : Bool) : (s.setKey k p).SP = s.SP := rfl
@[simp] theorem setKey_stack (k : Nibble) (p : Bool) : (s.setKey k p).stack = s.stack := rfl
@[simp] theorem setKey_DT (k : Nibble) (p : Bool) : (s.setKey k p).DT = s.DT := rfl
@[simp] theorem setKey_ST (k : Nibble) (p : Bool) : (s.setKey k p).ST = s.ST := rfl
@[simp] theorem setKey_rng (k : Nibble) (p : Bool) : (s.setKey k p).rng = s.rng := rfl
@[simp] theorem setKey_mem (k : Nibble) (p : Bool) : (s.setKey k p).mem = s.mem := rfl
@[simp] theorem setKey_fb (k : Nibble) (p : Bool) : (s.setKey k p).fb = s.fb := rfl
@[simp] theorem setKey_key (k : Nibble) (p : Bool) : (s.setKey k p).key = s.key.set k.toNat p k.isLt := rfl
@[simp] theorem setKey_wait (k : Nibble) (p : Bool) : (s.setKey k p).wait = s.wait := rfl
@[simp] theorem setKey_anchor3 (k : Nibble) (p : Bool) : (s.setKey k p).anchor3 = s.anchor3 := rfl
@[simp] theorem setKey_nowMs (k : Nibble) (p : Bool) : (s.setKey k p).nowMs = s.nowMs := rfl
@[simp] theorem setKey_pending (k : Nibble) (p : Bool) : (s.setKey k p).pending = s.pending := rfl

/-! ## storeBytes -/

@[simp] theorem storeBytes_V (a : Nat) (bs : List Byte) : (s.storeBytes a bs).V = s.V := rfl
@[simp] theorem storeBytes_PC (a : Nat) (bs : List Byte) : (s.storeBytes a bs).PC = s.PC := rfl
@[simp] theorem storeBytes_I (a : Nat) (bs : List Byte) : (s.storeBytes a bs).I = s.I := rfl
@[simp] theorem storeBytes_SP (a : Nat) (bs : List Byte) : (s.storeBytes a bs).SP = s.SP := rfl
@[simp] theorem storeBytes_stack (a : Nat) (bs : List Byte) : (s.storeBytes a bs).stack = s.stack := rfl
@[simp] theorem storeBytes_DT (a : Nat) (bs : List Byte) : (s.storeBytes a bs).DT = s.DT := rfl
@[simp] theorem storeBytes_ST (a : Nat) (bs : List Byte) : (s.storeBytes a bs).ST = s.ST := rfl
@[simp] theorem storeBytes_rng (a : Nat) (bs : List Byte) : (s.storeBytes a bs).rng = s.rng := rfl
@[simp] theorem storeBytes_mem (a : Nat) (bs : List Byte) : (s.storeBytes a bs).mem = s.mem.writeBytes a bs := rfl
@[simp] theorem storeBytes_fb (a : Nat) (bs : List Byte) : (s.storeBytes a bs).fb = s.fb := rfl
@[simp] theorem storeBytes_key (a : Nat) (bs : List Byte) : (s.storeBytes a bs).key = s.key := rfl
@[simp] theorem storeBytes_wait (a : Nat) (bs : List Byte) : (s.storeBytes a bs).wait = s.wait := rfl
@[simp] theorem storeBytes_anchor3 (a : Nat) (bs : List Byte) : (s.storeBytes a bs).anchor3 = s.anchor3 := rfl
@[simp] theorem storeBytes_nowMs (a : Nat) (bs : List Byte) : (s.storeBytes a bs).nowMs = s.nowMs := rfl
@[simp] theorem storeBytes_pending (a : Nat) (bs : List Byte) : (s.storeBytes a bs).pending = s.pending := rfl

/-! ## storeWords -/

@[simp] theorem storeWords_V (a : Nat) (ws : List Word) (e : Endian) : (s.storeWords a ws e).V = s.V := rfl
@[simp] theorem storeWords_PC (a : Nat) (ws : List Word) (e : Endian) : (s.storeWords a ws e).PC = s.PC := rfl
@[simp] theorem storeWords_I (a : Nat) (ws : List Word) (e : Endian) : (s.storeWords a ws e).I = s.I := rfl
@[simp] theorem storeWords_SP (a : Nat) (ws : List Word) (e : Endian) : (s.storeWords a ws e).SP = s.SP := rfl
@[simp] theorem storeWords_stack (a : Nat) (ws : List Word) (e : Endian) : (s.storeWords a ws e).stack = s.stack := rfl
@[simp] theorem storeWords_DT (a : Nat) (ws : List Word) (e : Endian) : (s.storeWords a ws e).DT = s.DT := rfl
@[simp] theorem storeWords_ST (a : Nat) (ws : List Word) (e : Endian) : (s.storeWords a ws e).ST = s.ST := rfl
@[simp] theorem storeWords_rng (a : Nat) (ws : List Word) (e : Endian) : (s.storeWords a ws e).rng = s.rng := rfl
@[simp] theorem storeWords_mem (a : Nat) (ws : List Word) (e : Endian) : (s.storeWords a ws e).mem = s.mem.writeWords a ws e := rfl
@[simp] theorem storeWords_fb (a : Nat) (ws : List Word) (e : Endian) : (s.storeWords a ws e).fb = s.fb := rfl
@[simp] theorem storeWords_key (a : Nat) (ws : List Word) (e : Endian) : (s.storeWords a ws e).key = s.key := rfl
@[simp] theorem storeWords_wait (a : Nat) (ws : List Word) (e : Endian) : (s.storeWords a ws e).wait = s.wait := rfl
@[simp] theorem storeWords_anchor3 (a : Nat) (ws : List Word) (e : Endian) : (s.storeWords a ws e).anchor3 = s.anchor3 := rfl
@[simp] theorem storeWords_nowMs (a : Nat) (ws : List Word) (e : Endian) : (s.storeWords a ws e).nowMs = s.nowMs := rfl
@[simp] theorem storeWords_pending (a : Nat) (ws : List Word) (e : Endian) : (s.storeWords a ws e).pending = s.pending := rfl

/-! ## advanceTimers -/

@[simp] theorem advanceTimers_V : s.advanceTimers.V = s.V := rfl
@[simp] theorem advanceTimers_PC : s.advanceTimers.PC = s.PC := rfl
@[simp] theorem advanceTimers_I : s.advanceTimers.I = s.I := rfl
@[simp] theorem advanceTimers_SP : s.advanceTimers.SP = s.SP := rfl
@[simp] theorem advanceTimers_stack : s.advanceTimers.stack = s.stack := rfl
@[simp] theorem advanceTimers_DT : s.advanceTimers.DT = countDown s.DT (tickCount s.nowMs s.anchor3) := rfl
@[simp] theorem advanceTimers_ST : s.advanceTimers.ST = countDown s.ST (tickCount s.nowMs s.anchor3) := rfl
@[simp] theorem advanceTimers_rng : s.advanceTimers.rng = s.rng := rfl
@[simp] theorem advanceTimers_mem : s.advanceTimers.mem = s.mem := rfl
@[simp] theorem advanceTimers_fb : s.advanceTimers.fb = s.fb := rfl
@[simp] theorem advanceTimers_key : s.advanceTimers.key = s.key := rfl
@[simp] theorem advanceTimers_wait : s.advanceTimers.wait = s.wait := rfl
@[simp] theorem advanceTimers_anchor3 : s.advanceTimers.anchor3 = s.anchor3 + Config.tickPeriod3 * tickCount s.nowMs s.anchor3 := rfl
@[simp] theorem advanceTimers_nowMs : s.advanceTimers.nowMs = s.nowMs := rfl
@[simp] theorem advanceTimers_pending : s.advanceTimers.pending = s.pending := rfl

/-! ## writeFlagThenV -/

@[simp] theorem writeFlagThenV_PC (c : Bool) (x : Nibble) (r : Byte) :
    (s.writeFlagThenV c x r).PC = s.PC := rfl
@[simp] theorem writeFlagThenV_I (c : Bool) (x : Nibble) (r : Byte) :
    (s.writeFlagThenV c x r).I = s.I := rfl
@[simp] theorem writeFlagThenV_SP (c : Bool) (x : Nibble) (r : Byte) :
    (s.writeFlagThenV c x r).SP = s.SP := rfl
@[simp] theorem writeFlagThenV_stack (c : Bool) (x : Nibble) (r : Byte) :
    (s.writeFlagThenV c x r).stack = s.stack := rfl
@[simp] theorem writeFlagThenV_DT (c : Bool) (x : Nibble) (r : Byte) :
    (s.writeFlagThenV c x r).DT = s.DT := rfl
@[simp] theorem writeFlagThenV_ST (c : Bool) (x : Nibble) (r : Byte) :
    (s.writeFlagThenV c x r).ST = s.ST := rfl
@[simp] theorem writeFlagThenV_rng (c : Bool) (x : Nibble) (r : Byte) :
    (s.writeFlagThenV c x r).rng = s.rng := rfl
@[simp] theorem writeFlagThenV_mem (c : Bool) (x : Nibble) (r : Byte) :
    (s.writeFlagThenV c x r).mem = s.mem := rfl
@[simp] theorem writeFlagThenV_fb (c : Bool) (x : Nibble) (r : Byte) :
    (s.writeFlagThenV c x r).fb = s.fb := rfl
@[simp] theorem writeFlagThenV_key (c : Bool) (x : Nibble) (r : Byte) :
    (s.writeFlagThenV c x r).key = s.key := rfl
@[simp] theorem writeFlagThenV_wait (c : Bool) (x : Nibble) (r : Byte) :
    (s.writeFlagThenV c x r).wait = s.wait := rfl
@[simp] theorem writeFlagThenV_anchor3 (c : Bool) (x : Nibble) (r : Byte) :
    (s.writeFlagThenV c x r).anchor3 = s.anchor3 := rfl
@[simp] theorem writeFlagThenV_nowMs (c : Bool) (x : Nibble) (r : Byte) :
    (s.writeFlagThenV c x r).nowMs = s.nowMs := rfl
@[simp] theorem writeFlagThenV_pending (c : Bool) (x : Nibble) (r : Byte) :
    (s.writeFlagThenV c x r).pending = s.pending := rfl

/-! ## skipIf -/

theorem skipIf_eq (c : Bool) : s.skipIf c = s.setPC (if c then s.PC + 2#16 else s.PC) := by
  cases c <;> rfl

@[simp] theorem skipIf_V (c : Bool) : (s.skipIf c).V = s.V := by rw [skipIf_eq]; rfl
@[simp] theorem skipIf_PC (c : Bool) : (s.skipIf c).PC = if c then s.PC + 2#16 else s.PC := by
  rw [skipIf_eq]; rfl
@[simp] theorem skipIf_I (c : Bool) : (s.skipIf c).I = s.I := by rw [skipIf_eq]; rfl
@[simp] theorem skipIf_SP (c : Bool) : (s.skipIf c).SP = s.SP := by rw [skipIf_eq]; rfl
@[simp] theorem skipIf_stack (c : Bool) : (s.skipIf c).stack = s.stack := by rw [skipIf_eq]; rfl
@[simp] theorem skipIf_DT (c : Bool) : (s.skipIf c).DT = s.DT := by rw [skipIf_eq]; rfl
@[simp] theorem skipIf_ST (c : Bool) : (s.skipIf c).ST = s.ST := by rw [skipIf_eq]; rfl
@[simp] theorem skipIf_rng (c : Bool) : (s.skipIf c).rng = s.rng := by rw [skipIf_eq]; rfl
@[simp] theorem skipIf_mem (c : Bool) : (s.skipIf c).mem = s.mem := by rw [skipIf_eq]; rfl
@[simp] theorem skipIf_fb (c : Bool) : (s.skipIf c).fb = s.fb := by rw [skipIf_eq]; rfl
@[simp] theorem skipIf_key (c : Bool) : (s.skipIf c).key = s.key := by rw [skipIf_eq]; rfl
@[simp] theorem skipIf_wait (c : Bool) : (s.skipIf c).wait = s.wait := by rw [skipIf_eq]; rfl
@[simp] theorem skipIf_anchor3 (c : Bool) : (s.skipIf c).anchor3 = s.anchor3 := by rw [skipIf_eq]; rfl
@[simp] theorem skipIf_nowMs (c : Bool) : (s.skipIf c).nowMs = s.nowMs := by rw [skipIf_eq]; rfl
@[simp] theorem skipIf_pending (c : Bool) : (s.skipIf c).pending = s.pending := by rw [skipIf_eq]; rfl

/-! ## push, popPC -/

@[simp] theorem push_V (w : Word) : (s.push w).V = s.V := by unfold State.push; split <;> rfl
@[simp] theorem push_PC (w : Word) : (s.push w).PC = s.PC := by unfold State.push; split <;> rfl
@[simp] theorem push_I (w : Word) : (s.push w).I = s.I := by unfold State.push; split <;> rfl
@[simp] theorem push_DT (w : Word) : (s.push w).DT = s.DT := by unfold State.push; split <;> rfl
@[simp] theorem push_ST (w : Word) : (s.push w).ST = s.ST := by unfold State.push; split <;> rfl
@[simp] theorem push_rng (w : Word) : (s.push w).rng = s.rng := by unfold State.push; split <;> rfl
@[simp] theorem push_mem (w : Word) : (s.push w).mem = s.mem := by unfold State.push; split <;> rfl
@[simp] theorem push_fb (w : Word) : (s.push w).fb = s.fb := by unfold State.push; split <;> rfl
@[simp] theorem push_key (w : Word) : (s.push w).key = s.key := by unfold State.push; split <;> rfl
@[simp] theorem push_wait (w : Word) : (s.push w).wait = s.wait := by unfold State.push; split <;> rfl
@[simp] theorem push_anchor3 (w : Word) : (s.push w).anchor3 = s.anchor3 := by unfold State.push; split <;> rfl
@[simp] theorem push_nowMs (w : Word) : (s.push w).nowMs = s.nowMs := by unfold State.push; split <;> rfl
@[simp] theorem push_pending (w : Word) : (s.push w).pending = s.pending := by unfold State.push; split <;> rfl
@[simp] theorem popPC_V : s.popPC.V = s.V := by unfold State.popPC; split <;> rfl
@[simp] theorem popPC_I : s.popPC.I = s.I := by unfold State.popPC; split <;> rfl
@[simp] theorem popPC_stack : s.popPC.stack = s.stack := by unfold State.popPC; split <;> rfl
@[simp] theorem popPC_DT : s.popPC.DT = s.DT := by unfold State.popPC; split <;> rfl
@[simp] theorem popPC_ST : s.popPC.ST = s.ST := by unfold State.popPC; split <;> rfl
@[simp] theorem popPC_rng : s.popPC.rng = s.rng := by unfold State.popPC; split <;> rfl
@[simp] theorem popPC_mem : s.popPC.mem = s.mem := by unfold State.popPC; split <;> rfl
@[simp] theorem popPC_fb : s.popPC.fb = s.fb := by unfold State.popPC; split <;> rfl
@[simp] theorem popPC_key : s.popPC.key = s.key := by unfold State.popPC; split <;> rfl
@[simp] theorem popPC_wait : s.popPC.wait = s.wait := by unfold State.popPC; split <;> rfl
@[simp] theorem popPC_anchor3 : s.popPC.anchor3 = s.anchor3 := by unfold State.popPC; split <;> rfl
@[simp] theorem popPC_nowMs : s.popPC.nowMs = s.nowMs := by unfold State.popPC; split <;> rfl
@[simp] theorem popPC_pending : s.popPC.pending = s.pending := by unfold State.popPC; split <;> rfl

/-- Everything a push does below the full stack. -/
theorem push_of_lt (w : Word) (h : s.SP.val < 16) :
    s.push w = { s with stack := s.stack.set s.SP.val w h, SP := ⟨s.SP.val + 1, by omega⟩ } := by
  simp [State.push, h]

/-- A push on the full stack is dropped. -/
theorem push_of_full (w : Word) (h : s.SP.val = 16) : s.push w = s := by simp [State.push, h]

/-- Everything a pop does on a stack that holds an entry. -/
theorem popPC_of_pos (h : 0 < s.SP.val) :
    s.popPC = { s with PC := s.stack[s.SP.val - 1]'(by omega), SP := ⟨s.SP.val - 1, by omega⟩ } := by
  simp [State.popPC, h]

/-- A pop on the empty stack does nothing. -/
theorem popPC_of_empty (h : s.SP.val = 0) : s.popPC = s := by simp [State.popPC, h]

/-! ## storeV, loadV: the blocks of FX55 and FX65 -/

@[simp] theorem storeV_V (a n : Nat) : (s.storeV a n).V = s.V := by
  induction n with
  | zero => rfl
  | succ n ih => simp [State.storeV, ih]
@[simp] theorem storeV_PC (a n : Nat) : (s.storeV a n).PC = s.PC := by
  induction n with
  | zero => rfl
  | succ n ih => simp [State.storeV, ih]
@[simp] theorem storeV_I (a n : Nat) : (s.storeV a n).I = s.I := by
  induction n with
  | zero => rfl
  | succ n ih => simp [State.storeV, ih]
@[simp] theorem storeV_SP (a n : Nat) : (s.storeV a n).SP = s.SP := by
  induction n with
  | zero => rfl
  | succ n ih => simp [State.storeV, ih]
@[simp] theorem storeV_stack (a n : Nat) : (s.storeV a n).stack = s.stack := by
  induction n with
  | zero => rfl
  | succ n ih => simp [State.storeV, ih]
@[simp] theorem storeV_DT (a n : Nat) : (s.storeV a n).DT = s.DT := by
  induction n with
  | zero => rfl
  | succ n ih => simp [State.storeV, ih]
@[simp] theorem storeV_ST (a n : Nat) : (s.storeV a n).ST = s.ST := by
  induction n with
  | zero => rfl
  | succ n ih => simp [State.storeV, ih]
@[simp] theorem storeV_rng (a n : Nat) : (s.storeV a n).rng = s.rng := by
  induction n with
  | zero => rfl
  | succ n ih => simp [State.storeV, ih]
@[simp] theorem storeV_fb (a n : Nat) : (s.storeV a n).fb = s.fb := by
  induction n with
  | zero => rfl
  | succ n ih => simp [State.storeV, ih]
@[simp] theorem storeV_key (a n : Nat) : (s.storeV a n).key = s.key := by
  induction n with
  | zero => rfl
  | succ n ih => simp [State.storeV, ih]
@[simp] theorem storeV_wait (a n : Nat) : (s.storeV a n).wait = s.wait := by
  induction n with
  | zero => rfl
  | succ n ih => simp [State.storeV, ih]
@[simp] theorem storeV_anchor3 (a n : Nat) : (s.storeV a n).anchor3 = s.anchor3 := by
  induction n with
  | zero => rfl
  | succ n ih => simp [State.storeV, ih]
@[simp] theorem storeV_nowMs (a n : Nat) : (s.storeV a n).nowMs = s.nowMs := by
  induction n with
  | zero => rfl
  | succ n ih => simp [State.storeV, ih]
@[simp] theorem storeV_pending (a n : Nat) : (s.storeV a n).pending = s.pending := by
  induction n with
  | zero => rfl
  | succ n ih => simp [State.storeV, ih]
@[simp] theorem loadV_PC (a n : Nat) : (s.loadV a n).PC = s.PC := by
  induction n with
  | zero => rfl
  | succ n ih => simp [State.loadV, ih]
@[simp] theorem loadV_I (a n : Nat) : (s.loadV a n).I = s.I := by
  induction n with
  | zero => rfl
  | succ n ih => simp [State.loadV, ih]
@[simp] theorem loadV_SP (a n : Nat) : (s.loadV a n).SP = s.SP := by
  induction n with
  | zero => rfl
  | succ n ih => simp [State.loadV, ih]
@[simp] theorem loadV_stack (a n : Nat) : (s.loadV a n).stack = s.stack := by
  induction n with
  | zero => rfl
  | succ n ih => simp [State.loadV, ih]
@[simp] theorem loadV_DT (a n : Nat) : (s.loadV a n).DT = s.DT := by
  induction n with
  | zero => rfl
  | succ n ih => simp [State.loadV, ih]
@[simp] theorem loadV_ST (a n : Nat) : (s.loadV a n).ST = s.ST := by
  induction n with
  | zero => rfl
  | succ n ih => simp [State.loadV, ih]
@[simp] theorem loadV_rng (a n : Nat) : (s.loadV a n).rng = s.rng := by
  induction n with
  | zero => rfl
  | succ n ih => simp [State.loadV, ih]
@[simp] theorem loadV_mem (a n : Nat) : (s.loadV a n).mem = s.mem := by
  induction n with
  | zero => rfl
  | succ n ih => simp [State.loadV, ih]
@[simp] theorem loadV_fb (a n : Nat) : (s.loadV a n).fb = s.fb := by
  induction n with
  | zero => rfl
  | succ n ih => simp [State.loadV, ih]
@[simp] theorem loadV_key (a n : Nat) : (s.loadV a n).key = s.key := by
  induction n with
  | zero => rfl
  | succ n ih => simp [State.loadV, ih]
@[simp] theorem loadV_wait (a n : Nat) : (s.loadV a n).wait = s.wait := by
  induction n with
  | zero => rfl
  | succ n ih => simp [State.loadV, ih]
@[simp] theorem loadV_anchor3 (a n : Nat) : (s.loadV a n).anchor3 = s.anchor3 := by
  induction n with
  | zero => rfl
  | succ n ih => simp [State.loadV, ih]
@[simp] theorem loadV_nowMs (a n : Nat) : (s.loadV a n).nowMs = s.nowMs := by
  induction n with
  | zero => rfl
  | succ n ih => simp [State.loadV, ih]
@[simp] theorem loadV_pending (a n : Nat) : (s.loadV a n).pending = s.pending := by
  induction n with
  | zero => rfl
  | succ n ih => simp [State.loadV, ih]

/-! ## pollKeyboard -/

@[simp] theorem pollKeyboard_PC (x : Nibble) : (s.pollKeyboard x).PC = s.PC := by
  unfold State.pollKeyboard; split <;> rfl
@[simp] theorem pollKeyboard_I (x : Nibble) : (s.pollKeyboard x).I = s.I := by
  unfold State.pollKeyboard; split <;> rfl
@[simp] theorem pollKeyboard_SP (x : Nibble) : (s.pollKeyboard x).SP = s.SP := by
  unfold State.pollKeyboard; split <;> rfl
@[simp] theorem pollKeyboard_stack (x : Nibble) : (s.pollKeyboard x).stack = s.stack := by
  unfold State.pollKeyboard; split <;> rfl
@[simp] theorem pollKeyboard_DT (x : Nibble) : (s.pollKeyboard x).DT = s.DT := by
  unfold State.pollKeyboard; split <;> rfl
@[simp] theorem pollKeyboard_ST (x : Nibble) : (s.pollKeyboard x).ST = s.ST := by
  unfold State.pollKeyboard; split <;> rfl
@[simp] theorem pollKeyboard_rng (x : Nibble) : (s.pollKeyboard x).rng = s.rng := by
  unfold State.pollKeyboard; split <;> rfl
@[simp] theorem pollKeyboard_mem (x : Nibble) : (s.pollKeyboard x).mem = s.mem := by
  unfold State.pollKeyboard; split <;> rfl
@[simp] theorem pollKeyboard_fb (x : Nibble) : (s.pollKeyboard x).fb = s.fb := by
  unfold State.pollKeyboard; split <;> rfl
@[simp] theorem pollKeyboard_key (x : Nibble) : (s.pollKeyboard x).key = s.key := by
  unfold State.pollKeyboard; split <;> rfl
@[simp] theorem pollKeyboard_anchor3 (x : Nibble) : (s.pollKeyboard x).anchor3 = s.anchor3 := by
  unfold State.pollKeyboard; split <;> rfl
@[simp] theorem pollKeyboard_nowMs (x : Nibble) : (s.pollKeyboard x).nowMs = s.nowMs := by
  unfold State.pollKeyboard; split <;> rfl
@[simp] theorem pollKeyboard_pending (x : Nibble) : (s.pollKeyboard x).pending = s.pending := by
  unfold State.pollKeyboard; split <;> rfl

/-! ## observe (spec 60 R137, 10 R27) -/

@[simp] theorem observe_V : s.observe.V = s.V := rfl
@[simp] theorem observe_I : s.observe.I = s.I := rfl
@[simp] theorem observe_PC : s.observe.PC = s.PC := rfl
@[simp] theorem observe_SP : s.observe.SP = BitVec.ofNat 8 s.SP.val := rfl
@[simp] theorem observe_stack : s.observe.stack = s.stack := rfl
@[simp] theorem observe_DT : s.observe.DT = s.DT := rfl
@[simp] theorem observe_ST : s.observe.ST = s.ST := rfl
@[simp] theorem observe_wait : s.observe.wait = s.wait := rfl
@[simp] theorem observe_rng : s.observe.rng = s.rng := rfl
@[simp] theorem observe_anchor3 : s.observe.anchor3 = s.anchor3 := rfl

end Sys2Proof.Machine
end

