-- ==== Sys2Proof/Laws/Reads.lean ====
section
/-! SUPPORT. The reads a program or the host makes (a register, a byte, a pixel, a key) after each
update, and what the register operations and the block load and store do, said once. -/

namespace Sys2Proof.Machine

variable (s : State)

/-! ## Reads depend on their own field alone -/

theorem readV_congr {s t : State} (h : t.V = s.V) (x : Nibble) : t.readV x = s.readV x := by
  simp [State.readV, h]

theorem loadByte_congr {s t : State} (h : t.mem = s.mem) (a : Nat) : t.loadByte a = s.loadByte a := by
  simp [State.loadByte, h]

theorem pixel_congr {s t : State} (h : t.fb = s.fb) (x y : Nat) : t.pixel x y = s.pixel x y := by
  simp [State.pixel, h]

theorem isPressed_congr {s t : State} (h : t.key = s.key) (k : Nibble) :
    t.isPressed k = s.isPressed k := by
  simp [State.isPressed, h]

/-! ## Reads of an untouched field -/

@[simp] theorem readV_setPC (w : Word) (z : Nibble) : (s.setPC w).readV z = s.readV z :=
  readV_congr (by simp) z
@[simp] theorem readV_advancePC (z : Nibble) : (s.advancePC).readV z = s.readV z :=
  readV_congr (by simp) z
@[simp] theorem readV_setI (w : Word) (z : Nibble) : (s.setI w).readV z = s.readV z :=
  readV_congr (by simp) z
@[simp] theorem readV_setDT (b : Byte) (z : Nibble) : (s.setDT b).readV z = s.readV z :=
  readV_congr (by simp) z
@[simp] theorem readV_setRng (w : RngState) (z : Nibble) : (s.setRng w).readV z = s.readV z :=
  readV_congr (by simp) z
@[simp] theorem readV_setFB (w : Framebuffer) (z : Nibble) : (s.setFB w).readV z = s.readV z :=
  readV_congr (by simp) z
@[simp] theorem readV_setST (b : Byte) (z : Nibble) : (s.setST b).readV z = s.readV z :=
  readV_congr (by simp) z
@[simp] theorem readV_setWait (w : Wait) (z : Nibble) : (s.setWait w).readV z = s.readV z :=
  readV_congr (by simp) z
@[simp] theorem readV_storeByte (a : Nat) (b : Byte) (z : Nibble) : (s.storeByte a b).readV z = s.readV z :=
  readV_congr (by simp) z
@[simp] theorem readV_applyTicks (n : Nat) (z : Nibble) : (s.applyTicks n).readV z = s.readV z :=
  readV_congr (by simp) z
@[simp] theorem readV_presentTime (now : Nat) (z : Nibble) : (s.presentTime now).readV z = s.readV z :=
  readV_congr (by simp) z
@[simp] theorem readV_setKey (k : Nibble) (p : Bool) (z : Nibble) : (s.setKey k p).readV z = s.readV z :=
  readV_congr (by simp) z
@[simp] theorem readV_advanceTimers (z : Nibble) : (s.advanceTimers).readV z = s.readV z :=
  readV_congr (by simp) z
@[simp] theorem readV_skipIf (c : Bool) (z : Nibble) : (s.skipIf c).readV z = s.readV z :=
  readV_congr (by simp) z
@[simp] theorem readV_push (w : Word) (z : Nibble) : (s.push w).readV z = s.readV z :=
  readV_congr (by simp) z
@[simp] theorem readV_popPC (z : Nibble) : (s.popPC).readV z = s.readV z :=
  readV_congr (by simp) z
@[simp] theorem readV_storeV (a n : Nat) (z : Nibble) : (s.storeV a n).readV z = s.readV z :=
  readV_congr (by simp) z
@[simp] theorem loadByte_writeV (x : Nibble) (b : Byte) (c : Nat) : (s.writeV x b).loadByte c = s.loadByte c :=
  loadByte_congr (by simp) c
@[simp] theorem loadByte_setPC (w : Word) (c : Nat) : (s.setPC w).loadByte c = s.loadByte c :=
  loadByte_congr (by simp) c
@[simp] theorem loadByte_advancePC (c : Nat) : (s.advancePC).loadByte c = s.loadByte c :=
  loadByte_congr (by simp) c
@[simp] theorem loadByte_setI (w : Word) (c : Nat) : (s.setI w).loadByte c = s.loadByte c :=
  loadByte_congr (by simp) c
@[simp] theorem loadByte_setDT (b : Byte) (c : Nat) : (s.setDT b).loadByte c = s.loadByte c :=
  loadByte_congr (by simp) c
@[simp] theorem loadByte_setRng (w : RngState) (c : Nat) : (s.setRng w).loadByte c = s.loadByte c :=
  loadByte_congr (by simp) c
@[simp] theorem loadByte_setFB (w : Framebuffer) (c : Nat) : (s.setFB w).loadByte c = s.loadByte c :=
  loadByte_congr (by simp) c
@[simp] theorem loadByte_setST (b : Byte) (c : Nat) : (s.setST b).loadByte c = s.loadByte c :=
  loadByte_congr (by simp) c
@[simp] theorem loadByte_setWait (w : Wait) (c : Nat) : (s.setWait w).loadByte c = s.loadByte c :=
  loadByte_congr (by simp) c
@[simp] theorem loadByte_applyTicks (n : Nat) (c : Nat) : (s.applyTicks n).loadByte c = s.loadByte c :=
  loadByte_congr (by simp) c
@[simp] theorem loadByte_presentTime (now : Nat) (c : Nat) : (s.presentTime now).loadByte c = s.loadByte c :=
  loadByte_congr (by simp) c
@[simp] theorem loadByte_setKey (k : Nibble) (p : Bool) (c : Nat) : (s.setKey k p).loadByte c = s.loadByte c :=
  loadByte_congr (by simp) c
@[simp] theorem loadByte_advanceTimers (c : Nat) : (s.advanceTimers).loadByte c = s.loadByte c :=
  loadByte_congr (by simp) c
@[simp] theorem loadByte_skipIf (c : Bool) (a : Nat) : (s.skipIf c).loadByte a = s.loadByte a :=
  loadByte_congr (by simp) a
@[simp] theorem loadByte_push (w : Word) (c : Nat) : (s.push w).loadByte c = s.loadByte c :=
  loadByte_congr (by simp) c
@[simp] theorem loadByte_popPC (c : Nat) : (s.popPC).loadByte c = s.loadByte c :=
  loadByte_congr (by simp) c
@[simp] theorem loadByte_loadV (a n : Nat) (c : Nat) : (s.loadV a n).loadByte c = s.loadByte c :=
  loadByte_congr (by simp) c
@[simp] theorem pixel_writeV (x : Nibble) (b : Byte) (px py : Nat) : (s.writeV x b).pixel px py = s.pixel px py :=
  pixel_congr (by simp) px py
@[simp] theorem pixel_setPC (w : Word) (px py : Nat) : (s.setPC w).pixel px py = s.pixel px py :=
  pixel_congr (by simp) px py
@[simp] theorem pixel_advancePC (px py : Nat) : (s.advancePC).pixel px py = s.pixel px py :=
  pixel_congr (by simp) px py
@[simp] theorem pixel_setI (w : Word) (px py : Nat) : (s.setI w).pixel px py = s.pixel px py :=
  pixel_congr (by simp) px py
@[simp] theorem pixel_setDT (b : Byte) (px py : Nat) : (s.setDT b).pixel px py = s.pixel px py :=
  pixel_congr (by simp) px py
@[simp] theorem pixel_setRng (w : RngState) (px py : Nat) : (s.setRng w).pixel px py = s.pixel px py :=
  pixel_congr (by simp) px py
@[simp] theorem pixel_setFB (fb : Framebuffer) (px py : Nat) :
    (s.setFB fb).pixel px py = fb.pixel px py := rfl
@[simp] theorem pixel_setST (b : Byte) (px py : Nat) : (s.setST b).pixel px py = s.pixel px py :=
  pixel_congr (by simp) px py
@[simp] theorem pixel_setWait (w : Wait) (px py : Nat) : (s.setWait w).pixel px py = s.pixel px py :=
  pixel_congr (by simp) px py
@[simp] theorem pixel_storeByte (a : Nat) (b : Byte) (px py : Nat) : (s.storeByte a b).pixel px py = s.pixel px py :=
  pixel_congr (by simp) px py
@[simp] theorem pixel_applyTicks (n : Nat) (px py : Nat) : (s.applyTicks n).pixel px py = s.pixel px py :=
  pixel_congr (by simp) px py
@[simp] theorem pixel_presentTime (now : Nat) (px py : Nat) : (s.presentTime now).pixel px py = s.pixel px py :=
  pixel_congr (by simp) px py
@[simp] theorem pixel_setKey (k : Nibble) (p : Bool) (px py : Nat) : (s.setKey k p).pixel px py = s.pixel px py :=
  pixel_congr (by simp) px py
@[simp] theorem pixel_advanceTimers (px py : Nat) : (s.advanceTimers).pixel px py = s.pixel px py :=
  pixel_congr (by simp) px py
@[simp] theorem pixel_skipIf (c : Bool) (px py : Nat) : (s.skipIf c).pixel px py = s.pixel px py :=
  pixel_congr (by simp) px py
@[simp] theorem pixel_push (w : Word) (px py : Nat) : (s.push w).pixel px py = s.pixel px py :=
  pixel_congr (by simp) px py
@[simp] theorem pixel_popPC (px py : Nat) : (s.popPC).pixel px py = s.pixel px py :=
  pixel_congr (by simp) px py
@[simp] theorem pixel_storeV (a n : Nat) (px py : Nat) : (s.storeV a n).pixel px py = s.pixel px py :=
  pixel_congr (by simp) px py
@[simp] theorem pixel_loadV (a n : Nat) (px py : Nat) : (s.loadV a n).pixel px py = s.pixel px py :=
  pixel_congr (by simp) px py
@[simp] theorem isPressed_writeV (x : Nibble) (b : Byte) (k2 : Nibble) : (s.writeV x b).isPressed k2 = s.isPressed k2 :=
  isPressed_congr (by simp) k2
@[simp] theorem isPressed_setPC (w : Word) (k2 : Nibble) : (s.setPC w).isPressed k2 = s.isPressed k2 :=
  isPressed_congr (by simp) k2
@[simp] theorem isPressed_advancePC (k2 : Nibble) : (s.advancePC).isPressed k2 = s.isPressed k2 :=
  isPressed_congr (by simp) k2
@[simp] theorem isPressed_setI (w : Word) (k2 : Nibble) : (s.setI w).isPressed k2 = s.isPressed k2 :=
  isPressed_congr (by simp) k2
@[simp] theorem isPressed_setDT (b : Byte) (k2 : Nibble) : (s.setDT b).isPressed k2 = s.isPressed k2 :=
  isPressed_congr (by simp) k2
@[simp] theorem isPressed_setRng (w : RngState) (k2 : Nibble) : (s.setRng w).isPressed k2 = s.isPressed k2 :=
  isPressed_congr (by simp) k2
@[simp] theorem isPressed_setFB (w : Framebuffer) (k2 : Nibble) : (s.setFB w).isPressed k2 = s.isPressed k2 :=
  isPressed_congr (by simp) k2
@[simp] theorem isPressed_setST (b : Byte) (k2 : Nibble) : (s.setST b).isPressed k2 = s.isPressed k2 :=
  isPressed_congr (by simp) k2
@[simp] theorem isPressed_setWait (w : Wait) (k2 : Nibble) : (s.setWait w).isPressed k2 = s.isPressed k2 :=
  isPressed_congr (by simp) k2
@[simp] theorem isPressed_storeByte (a : Nat) (b : Byte) (k2 : Nibble) : (s.storeByte a b).isPressed k2 = s.isPressed k2 :=
  isPressed_congr (by simp) k2
@[simp] theorem isPressed_applyTicks (n : Nat) (k2 : Nibble) : (s.applyTicks n).isPressed k2 = s.isPressed k2 :=
  isPressed_congr (by simp) k2
@[simp] theorem isPressed_presentTime (now : Nat) (k2 : Nibble) : (s.presentTime now).isPressed k2 = s.isPressed k2 :=
  isPressed_congr (by simp) k2
@[simp] theorem isPressed_advanceTimers (k2 : Nibble) : (s.advanceTimers).isPressed k2 = s.isPressed k2 :=
  isPressed_congr (by simp) k2
@[simp] theorem isPressed_skipIf (c : Bool) (k2 : Nibble) : (s.skipIf c).isPressed k2 = s.isPressed k2 :=
  isPressed_congr (by simp) k2
@[simp] theorem isPressed_push (w : Word) (k2 : Nibble) : (s.push w).isPressed k2 = s.isPressed k2 :=
  isPressed_congr (by simp) k2
@[simp] theorem isPressed_popPC (k2 : Nibble) : (s.popPC).isPressed k2 = s.isPressed k2 :=
  isPressed_congr (by simp) k2
@[simp] theorem isPressed_storeV (a n : Nat) (k2 : Nibble) : (s.storeV a n).isPressed k2 = s.isPressed k2 :=
  isPressed_congr (by simp) k2
@[simp] theorem isPressed_loadV (a n : Nat) (k2 : Nibble) : (s.loadV a n).isPressed k2 = s.isPressed k2 :=
  isPressed_congr (by simp) k2

/-! ## Registers (spec 10 R10) -/

/-- Everything a register write does to the registers. -/
theorem readV_writeV (x : Nibble) (b : Byte) (z : Nibble) :
    (s.writeV x b).readV z = if z = x then b else s.readV z := by
  simp only [State.readV, writeV_V, Vector.getElem_set, BitVec.toNat_inj, eq_comm (a := x)]

@[simp] theorem readV_writeV_same (x : Nibble) (b : Byte) : (s.writeV x b).readV x = b := by
  simp [readV_writeV]

theorem readV_writeV_other {x z : Nibble} (h : z ≠ x) (b : Byte) :
    (s.writeV x b).readV z = s.readV z := by
  simp [readV_writeV, h]

/-- The flag is written first, so with `x` = 0xF the result stays (spec 10 R11). -/
theorem readV_writeFlagThenV (c : Bool) (x : Nibble) (r : Byte) (z : Nibble) :
    (s.writeFlagThenV c x r).readV z = if z = x then r else if z = vf then flag c else s.readV z := by
  simp [State.writeFlagThenV, readV_writeV]

@[simp] theorem loadByte_writeFlagThenV (c : Bool) (x : Nibble) (r : Byte) (a : Nat) :
    (s.writeFlagThenV c x r).loadByte a = s.loadByte a := rfl

@[simp] theorem pixel_writeFlagThenV (c : Bool) (x : Nibble) (r : Byte) (px py : Nat) :
    (s.writeFlagThenV c x r).pixel px py = s.pixel px py := rfl

@[simp] theorem isPressed_writeFlagThenV (c : Bool) (x : Nibble) (r : Byte) (k : Nibble) :
    (s.writeFlagThenV c x r).isPressed k = s.isPressed k := rfl

theorem isPressed_setKey (k : Nibble) (p : Bool) (j : Nibble) :
    (s.setKey k p).isPressed j = if j = k then p else s.isPressed j := by
  simp only [State.isPressed, setKey_key, Vector.getElem_set, BitVec.toNat_inj, eq_comm (a := k)]

/-! ## Memory seen from the state (spec 20) -/

theorem loadByte_storeByte (a : Nat) (b : Byte) (c : Nat) :
    (s.storeByte a b).loadByte c = if Memory.wrap c = Memory.wrap a then b else s.loadByte c := by
  simp [State.loadByte, read_write]

theorem ofNat_toNat_nibble (k : Nibble) : BitVec.ofNat 4 k.toNat = k := by simp

/-- Everything the block store of FX55 does to memory (spec 43 R99): outside the block nothing. -/
theorem loadByte_storeV_other (a n c : Nat)
    (h : ∀ k < n, Memory.wrap c ≠ Memory.wrap (a + k)) :
    (s.storeV a n).loadByte c = s.loadByte c := by
  induction n with
  | zero => rfl
  | succ n ih =>
    rw [State.storeV, loadByte_storeByte, if_neg (h n (by omega)), ih fun k hk => h k (by omega)]

/-- Everything the block store of FX55 does to memory (spec 43 R99): the block itself. -/
theorem loadByte_storeV (a n : Nat) (hn : n ≤ 16) (k : Nibble) (hk : k.toNat < n) :
    (s.storeV a n).loadByte (a + k.toNat) = s.readV k := by
  induction n with
  | zero => omega
  | succ n ih =>
    rw [State.storeV, loadByte_storeByte]
    by_cases h : k.toNat = n
    · subst h; simp
    · rw [if_neg, ih (by omega) (by omega)]
      intro heq
      exact h (wrap_add_inj (by omega) (by omega) heq)

/-- Everything the block load of FX65 does to the registers (spec 43 R100). -/
theorem readV_loadV (a n : Nat) (hn : n ≤ 16) (z : Nibble) :
    (s.loadV a n).readV z = if z.toNat < n then s.loadByte (a + z.toNat) else s.readV z := by
  induction n with
  | zero => rfl
  | succ n ih =>
    have hz : z = BitVec.ofNat 4 n ↔ z.toNat = n := by
      rw [← BitVec.toNat_inj]; simp [Nat.mod_eq_of_lt (show n < 16 by omega)]
    rw [State.loadV, readV_writeV, ih (by omega)]
    by_cases h : z.toNat = n
    · rw [if_pos (hz.2 h), if_pos (by omega), h]
    · rw [if_neg (fun e => h (hz.1 e))]
      by_cases h2 : z.toNat < n
      · rw [if_pos h2, if_pos (by omega)]
      · rw [if_neg h2, if_neg (by omega)]

/-- The block store keeps the canonical form of memory. -/
theorem storeV_mem_wf (h : s.mem.wf) (a n : Nat) : (s.storeV a n).mem.wf := by
  induction n with
  | zero => exact h
  | succ n ih => exact write_wf ih _ _

end Sys2Proof.Machine
end

