-- ==== Sys2Proof/Laws/Display.lean ====
section
/-! SUPPORT. The framebuffer and the sprite blit: what one pixel write does, and that the loops of
spec 44 R106 XOR a picture onto the screen and report whether a lit pixel was cleared. -/

namespace Sys2Proof.Machine

theorem pixelIndex_lt (x y : Nat) : pixelIndex x y < 2048 := by unfold pixelIndex; omega

theorem pixelIndex_eq_iff (x y x' y' : Nat) :
    pixelIndex x y = pixelIndex x' y' ↔ x % 64 = x' % 64 ∧ y % 32 = y' % 32 := by
  unfold pixelIndex; omega

/-- Every framebuffer bit is the pixel at its row-major index (spec 10 R20). -/
theorem getLsbD_eq_pixel (fb : Framebuffer) (i : Nat) (h : i < 2048) :
    fb.getLsbD i = fb.pixel (i % 64) (i / 64) := by
  unfold Framebuffer.pixel pixelIndex
  congr 1; omega

/-- Two framebuffers with the same pixels are equal. -/
theorem fb_ext {fb fb' : Framebuffer}
    (h : ∀ px py, px < 64 → py < 32 → fb.pixel px py = fb'.pixel px py) : fb = fb' := by
  apply BitVec.eq_of_getLsbD_eq
  intro i hi
  rw [getLsbD_eq_pixel _ _ hi, getLsbD_eq_pixel _ _ hi]
  exact h _ _ (by omega) (by omega)

/-- Everything a pixel write does. -/
theorem pixel_setPixel (fb : Framebuffer) (x y : Nat) (b : Bool) (x' y' : Nat) :
    (fb.setPixel x y b).pixel x' y' =
      if x' % 64 = x % 64 ∧ y' % 32 = y % 32 then b else fb.pixel x' y' := by
  simp only [← pixelIndex_eq_iff]
  have h' := pixelIndex_lt x' y'
  have h := pixelIndex_lt x y
  have hb : (1#2048 <<< pixelIndex x y).getLsbD (pixelIndex x' y') =
      decide (pixelIndex x' y' = pixelIndex x y) := by
    rw [BitVec.getLsbD_shiftLeft, BitVec.getLsbD_one]
    by_cases e : pixelIndex x' y' = pixelIndex x y
    · simp [e, h]
    · by_cases l : pixelIndex x' y' < pixelIndex x y
      · simp [l, e]
      · simp [e, h']; omega
  unfold Framebuffer.pixel Framebuffer.setPixel
  by_cases e : pixelIndex x' y' = pixelIndex x y <;> cases b
  · simp only [Bool.false_eq_true, if_false, BitVec.getLsbD_and, BitVec.getLsbD_not, hb]; simp [e]
  · simp only [if_true, BitVec.getLsbD_or, hb]; simp [e]
  · simp only [Bool.false_eq_true, if_false, BitVec.getLsbD_and, BitVec.getLsbD_not, hb]; simp [e, h']
  · simp only [if_true, BitVec.getLsbD_or, hb]; simp [e]

@[simp] theorem pixel_blank (px py : Nat) : Framebuffer.blank.pixel px py = false := by
  simp [Framebuffer.pixel, Framebuffer.blank]

/-! ## The blit (spec 44 R106) -/

theorem pixel_xorPixel (c : Canvas) (px py : Nat) (b : Bool) (x y : Nat) :
    (c.xorPixel px py b).1.pixel x y =
      (c.1.pixel x y ^^ (decide (x % 64 = px % 64 ∧ y % 32 = py % 32) && b)) := by
  have hc : x % 64 = px % 64 ∧ y % 32 = py % 32 → c.1.pixel px py = c.1.pixel x y := by
    intro h
    unfold Framebuffer.pixel
    rw [(pixelIndex_eq_iff x y px py).2 h]
  simp only [Canvas.xorPixel, pixel_setPixel]
  split
  · rename_i h; simp [h, hc h]
  · rename_i h; simp [h]

/-- How many columns right of column `vx` the column `px` lies, modulo 64. -/
def colsRight (vx px : Nat) : Nat := (px + 256 - vx) % 64

/-- How many rows below row `vy` the row `py` lies, modulo 32. -/
def rowsBelow (vy py : Nat) : Nat := (py + 256 - vy) % 32

theorem colsRight_eq_iff {vx px col : Nat} (hv : vx < 256) (hc : col < 64) :
    colsRight vx px = col ↔ px % 64 = (vx + col) % 64 := by
  unfold colsRight; omega

theorem rowsBelow_eq_iff {vy py row : Nat} (hv : vy < 256) (hr : row < 32) :
    rowsBelow vy py = row ↔ py % 32 = (vy + row) % 32 := by
  unfold rowsBelow; omega

/-- The picture of the first `cols` columns of one sprite row. -/
def rowBit (vx py : Nat) (b : Byte) (cols x y : Nat) : Bool :=
  decide (y % 32 = py % 32) && decide (colsRight vx x < cols) && b.getLsbD (7 - colsRight vx x)

/-- The inner loop XORs the row's picture and reports a cleared pixel. -/
theorem xorRow_spec (c : Canvas) (vx py : Nat) (b : Byte) (hv : vx < 256) (cols : Nat)
    (hc : cols ≤ 8) :
    (∀ x y, (c.xorRow vx py b cols).1.pixel x y = (c.1.pixel x y ^^ rowBit vx py b cols x y)) ∧
    ((c.xorRow vx py b cols).2 = true ↔
      c.2 = true ∨ ∃ x y, x < 64 ∧ y < 32 ∧ c.1.pixel x y = true ∧ rowBit vx py b cols x y = true) := by
  induction cols with
  | zero => simp [Canvas.xorRow, rowBit]
  | succ cols ih =>
    obtain ⟨ihp, ihh⟩ := ih (by omega)
    have hstep : ∀ x y, rowBit vx py b (cols + 1) x y = (rowBit vx py b cols x y ^^
        (decide (x % 64 = (vx + cols) % 64 ∧ y % 32 = py % 32) && b.getLsbD (7 - cols))) := by
      intro x y
      have hx := colsRight_eq_iff (px := x) (col := cols) hv (by omega)
      unfold rowBit
      by_cases hy : y % 32 = py % 32
      · by_cases he : colsRight vx x = cols
        · simp [hy, he, hx.1 he]
        · have hne : ¬ x % 64 = (vx + cols) % 64 := fun h => he (hx.2 h)
          have hiff : colsRight vx x < cols + 1 ↔ colsRight vx x < cols := by omega
          simp [hy, hne, hiff]
      · simp [hy]
    have hself : rowBit vx py b cols ((vx + cols) % 64) (py % 32) = false := by
      have : colsRight vx ((vx + cols) % 64) = cols :=
        (colsRight_eq_iff hv (by omega)).2 (by omega)
      simp [rowBit, this]
    have hpix : (c.xorRow vx py b cols).1.pixel (vx + cols) py =
        c.1.pixel ((vx + cols) % 64) (py % 32) := by
      have hmod : (c.xorRow vx py b cols).1.pixel (vx + cols) py =
          (c.xorRow vx py b cols).1.pixel ((vx + cols) % 64) (py % 32) := by
        unfold Framebuffer.pixel
        rw [(pixelIndex_eq_iff _ _ ((vx + cols) % 64) (py % 32)).2 (by omega)]
      rw [hmod, ihp, hself]; simp
    refine ⟨fun x y => ?_, ?_⟩
    · rw [Canvas.xorRow, pixel_xorPixel, ihp, hstep]; simp
    · have hhit : (c.xorRow vx py b (cols + 1)).2 = true ↔
          (c.xorRow vx py b cols).2 = true ∨
            (c.1.pixel ((vx + cols) % 64) (py % 32) = true ∧ b.getLsbD (7 - cols) = true) := by
        simp [Canvas.xorRow, Canvas.xorPixel, hpix]
      rw [hhit, ihh]
      constructor
      · rintro ((h | ⟨x, y, hx, hy, hp, hr⟩) | ⟨hp, hb⟩)
        · exact .inl h
        · refine .inr ⟨x, y, hx, hy, hp, ?_⟩
          have hne : colsRight vx x < cols := by
            simp only [rowBit, Bool.and_eq_true, decide_eq_true_eq] at hr; exact hr.1.2
          simp only [rowBit, Bool.and_eq_true, decide_eq_true_eq] at hr ⊢
          exact ⟨⟨hr.1.1, by omega⟩, hr.2⟩
        · refine .inr ⟨(vx + cols) % 64, py % 32, by omega, by omega, hp, ?_⟩
          rw [hstep, hself]; simp [hb]
      · rintro (h | ⟨x, y, hx, hy, hp, hr⟩)
        · exact .inl (.inl h)
        · by_cases he : colsRight vx x = cols
          · simp only [rowBit, Bool.and_eq_true, decide_eq_true_eq, he] at hr
            have hxe := (colsRight_eq_iff hv (by omega)).1 he
            rw [Nat.mod_eq_of_lt hx] at hxe
            rw [Nat.mod_eq_of_lt hy] at hr
            subst hxe
            exact .inr ⟨by rw [← hr.1.1]; exact hp, hr.2⟩
          · refine .inl (.inr ⟨x, y, hx, hy, hp, ?_⟩)
            simp only [rowBit, Bool.and_eq_true, decide_eq_true_eq] at hr ⊢
            exact ⟨⟨hr.1.1, by omega⟩, hr.2⟩

/-- The picture of the first `n` rows of a sprite. -/
def rowsBit (m : Memory) (base vx vy n x y : Nat) : Bool :=
  decide (colsRight vx x < 8) && decide (rowsBelow vy y < n) &&
    (m.read (base + rowsBelow vy y)).getLsbD (7 - colsRight vx x)

/-- The outer loop XORs the sprite's picture and reports a cleared pixel. -/
theorem xorRows_spec (c : Canvas) (m : Memory) (base vx vy : Nat) (hx : vx < 256) (hy : vy < 256)
    (n : Nat) (hn : n ≤ 32) :
    (∀ x y, (c.xorRows m base vx vy n).1.pixel x y =
      (c.1.pixel x y ^^ rowsBit m base vx vy n x y)) ∧
    ((c.xorRows m base vx vy n).2 = true ↔
      c.2 = true ∨
        ∃ x y, x < 64 ∧ y < 32 ∧ c.1.pixel x y = true ∧ rowsBit m base vx vy n x y = true) := by
  induction n with
  | zero => simp [Canvas.xorRows, rowsBit]
  | succ n ih =>
    obtain ⟨ihp, ihh⟩ := ih (by omega)
    have hstep : ∀ x y, rowsBit m base vx vy (n + 1) x y = (rowsBit m base vx vy n x y ^^
        rowBit vx (vy + n) (m.read (base + n)) 8 x y) := by
      intro x y
      have he := rowsBelow_eq_iff (py := y) (row := n) hy (by omega)
      unfold rowsBit rowBit
      by_cases h : rowsBelow vy y = n
      · simp [h, he.1 h]
      · have hne : ¬ y % 32 = (vy + n) % 32 := fun e => h (he.2 e)
        have hiff : rowsBelow vy y < n + 1 ↔ rowsBelow vy y < n := by omega
        simp [hne, hiff]
    have hdisj : ∀ x y, rowBit vx (vy + n) (m.read (base + n)) 8 x y = true →
        rowsBit m base vx vy n x y = false := by
      intro x y h
      have he := rowsBelow_eq_iff (py := y) (row := n) hy (by omega)
      simp only [rowBit, Bool.and_eq_true, decide_eq_true_eq] at h
      simp [rowsBit, he.2 h.1.1]
    obtain ⟨hp, hh⟩ := xorRow_spec (c.xorRows m base vx vy n) vx (vy + n) (m.read (base + n)) hx 8 le_rfl
    refine ⟨fun x y => ?_, ?_⟩
    · rw [Canvas.xorRows, hp, ihp, hstep, Bool.xor_assoc]
    · rw [Canvas.xorRows, hh, ihh]
      constructor
      · rintro ((h | ⟨x, y, h1, h2, h3, h4⟩) | ⟨x, y, h1, h2, h3, h4⟩)
        · exact .inl h
        · refine .inr ⟨x, y, h1, h2, h3, ?_⟩
          simp only [rowsBit, Bool.and_eq_true, decide_eq_true_eq] at h4 ⊢
          exact ⟨⟨h4.1.1, by omega⟩, h4.2⟩
        · have hd := hdisj x y h4
          rw [ihp, hd, Bool.xor_false] at h3
          exact .inr ⟨x, y, h1, h2, h3, by rw [hstep, hd, h4]; rfl⟩
      · rintro (h | ⟨x, y, h1, h2, h3, h4⟩)
        · exact .inl (.inl h)
        · by_cases hb : rowBit vx (vy + n) (m.read (base + n)) 8 x y = true
          · exact .inr ⟨x, y, h1, h2, by rw [ihp, hdisj x y hb, h3]; rfl, hb⟩
          · rw [hstep, Bool.eq_false_of_not_eq_true hb, Bool.xor_false] at h4
            exact .inl (.inr ⟨x, y, h1, h2, h3, h4⟩)

/-- Everything DXYN's drawing does: the sprite's picture is XORed onto the screen, and the flag says
whether a lit pixel was cleared. -/
theorem drawSprite_spec (s : State) (x y n : Nibble) :
    (∀ px py, (s.drawSprite x y n).1.pixel px py = (s.pixel px py ^^
      rowsBit s.mem (s.indexed 0) (s.readV x).toNat (s.readV y).toNat n.toNat px py)) ∧
    ((s.drawSprite x y n).2 = true ↔ ∃ px py, px < 64 ∧ py < 32 ∧ s.pixel px py = true ∧
      rowsBit s.mem (s.indexed 0) (s.readV x).toNat (s.readV y).toNat n.toNat px py = true) := by
  have h := xorRows_spec (s.fb, false) s.mem (s.indexed 0) (s.readV x).toNat (s.readV y).toNat
    (s.readV x).isLt (s.readV y).isLt n.toNat (by omega)
  exact ⟨h.1, by simpa [State.drawSprite, State.pixel] using h.2⟩

end Sys2Proof.Machine
end

