-- ==== Sys2Proof/Laws/PerInstr.lean ====
section
/-! SUPPORT. The per-instruction family EncodesInItsRow: every instruction fits its fields, and the
classifier gives its encoding the key of its row (spec 30 R52 to R55). -/

namespace Sys2Proof.Laws.EncodesInItsRow

/-- The instruction is well formed, and its encoding has its row's key. -/
def Statement (i : Instr) : Prop := i.wellFormed = true ∧ keyOf (encode i) = i.fixedBits

theorem statement_of (i : Instr) : Statement i := ⟨wellFormed_instr i, keyOf_encode i⟩

theorem cls (ignored : Nibble) : Statement (.cls ignored) := statement_of _
theorem ret (ignored : Nibble) : Statement (.ret ignored) := statement_of _
theorem jpAddr (nnn : Addr) : Statement (.jpAddr nnn) := statement_of _
theorem callAddr (nnn : Addr) : Statement (.callAddr nnn) := statement_of _
theorem seVxByte (x : Nibble) (kk : Byte) : Statement (.seVxByte x kk) := statement_of _
theorem sneVxByte (x : Nibble) (kk : Byte) : Statement (.sneVxByte x kk) := statement_of _
theorem seVxVy (x y : Nibble) : Statement (.seVxVy x y) := statement_of _
theorem ldVxByte (x : Nibble) (kk : Byte) : Statement (.ldVxByte x kk) := statement_of _
theorem addVxByte (x : Nibble) (kk : Byte) : Statement (.addVxByte x kk) := statement_of _
theorem ldVxVy (x y : Nibble) : Statement (.ldVxVy x y) := statement_of _
theorem orVxVy (x y : Nibble) : Statement (.orVxVy x y) := statement_of _
theorem andVxVy (x y : Nibble) : Statement (.andVxVy x y) := statement_of _
theorem xorVxVy (x y : Nibble) : Statement (.xorVxVy x y) := statement_of _
theorem addVxVy (x y : Nibble) : Statement (.addVxVy x y) := statement_of _
theorem subVxVy (x y : Nibble) : Statement (.subVxVy x y) := statement_of _
theorem shrVxVy (x y : Nibble) : Statement (.shrVxVy x y) := statement_of _
theorem subnVxVy (x y : Nibble) : Statement (.subnVxVy x y) := statement_of _
theorem shlVxVy (x y : Nibble) : Statement (.shlVxVy x y) := statement_of _
theorem sneVxVy (x y : Nibble) : Statement (.sneVxVy x y) := statement_of _
theorem ldIAddr (nnn : Addr) : Statement (.ldIAddr nnn) := statement_of _
theorem jpV0Addr (nnn : Addr) : Statement (.jpV0Addr nnn) := statement_of _
theorem rndVxByte (x : Nibble) (kk : Byte) : Statement (.rndVxByte x kk) := statement_of _
theorem drwVxVyN (x y n : Nibble) : Statement (.drwVxVyN x y n) := statement_of _
theorem skpVx (x : Nibble) : Statement (.skpVx x) := statement_of _
theorem sknpVx (x : Nibble) : Statement (.sknpVx x) := statement_of _
theorem ldVxDt (x : Nibble) : Statement (.ldVxDt x) := statement_of _
theorem ldVxK (x : Nibble) : Statement (.ldVxK x) := statement_of _
theorem ldDtVx (x : Nibble) : Statement (.ldDtVx x) := statement_of _
theorem ldStVx (x : Nibble) : Statement (.ldStVx x) := statement_of _
theorem addIVx (x : Nibble) : Statement (.addIVx x) := statement_of _
theorem ldFVx (x : Nibble) : Statement (.ldFVx x) := statement_of _
theorem ldBVx (x : Nibble) : Statement (.ldBVx x) := statement_of _
theorem ldMemIVx (x : Nibble) : Statement (.ldMemIVx x) := statement_of _
theorem ldVxMemI (x : Nibble) : Statement (.ldVxMemI x) := statement_of _

end Sys2Proof.Laws.EncodesInItsRow
end

