-- ==== Sys2Proof/Laws/Timers.lean ====
section
/-! SUPPORT. The timer unit (spec 60 R127 to R131): what the tick count and one update do. -/

namespace Sys2Proof.Machine

/-- A timer falls by the ticks and not below zero (spec 60 R130). -/
@[simp] theorem toNat_countDown (t : Byte) (n : Nat) : (countDown t n).toNat = t.toNat - n := by
  have := t.isLt
  simp [countDown]
  omega

@[simp] theorem countDown_zero (t : Byte) : countDown t 0 = t := by
  apply BitVec.eq_of_toNat_eq; simp

/-- The tick count is the number of whole periods up to the time presented (spec 60 R129). -/
theorem tickCount_spec {now anchor : Nat} (h : anchor ≤ 3 * now) :
    anchor + 50 * tickCount now anchor ≤ 3 * now ∧ 3 * now < anchor + 50 * tickCount now anchor + 50 := by
  simp only [tickCount, if_pos h, Config.tickPeriod3]; omega

/-- Time behind the anchor gives no tick (spec 60 R129). -/
theorem tickCount_of_lt {now anchor : Nat} (h : 3 * now < anchor) : tickCount now anchor = 0 := by
  simp [tickCount]; omega

/-- No tick is due within one period of the anchor. -/
theorem tickCount_eq_zero {now anchor : Nat} (h : 3 * now < anchor + 50) : tickCount now anchor = 0 := by
  simp only [tickCount, Config.tickPeriod3]; split <;> omega

/-- After an update no due tick is left undelivered: the timer clause of the invariant. -/
theorem advanceTimers_due (s : State) :
    3 * s.advanceTimers.nowMs < s.advanceTimers.anchor3 + Config.tickPeriod3 := by
  simp only [advanceTimers_nowMs, advanceTimers_anchor3, Config.tickPeriod3]
  by_cases h : s.anchor3 ≤ 3 * s.nowMs
  · have := tickCount_spec h; omega
  · omega

/-- With no tick due an update changes nothing. -/
theorem advanceTimers_of_zero (s : State) (h : tickCount s.nowMs s.anchor3 = 0) :
    s.advanceTimers = s := by
  simp [State.advanceTimers, State.applyTicks, h]

end Sys2Proof.Machine
end

