-- ==== Sys2Proof/Laws/Step.lean ====
section
/-! SUPPORT. Inversion lemmas: what the dispatch, the interpreter's step, the key poll and an event
of the machine can do, said once, so that no proof unfolds them. -/

namespace Sys2Proof.Machine

/-! ## withTimers -/

@[simp] theorem withTimers_next (s : State) : withTimers (.next s) = .next s.advanceTimers := rfl

theorem withTimers_eq_next {o : Host.Outcome State Fault Refusal} {t : State} :
    withTimers o = .next t ↔ ∃ u, o = .next u ∧ t = u.advanceTimers := by
  cases o <;> simp [withTimers, eq_comm]

/-! ## The search for the lowest key (spec 40 R61) -/

theorem firstKeyFrom_spec (s : State) (k fuel : Nat) (h : k + fuel ≤ 16) :
    (∀ j, s.firstKeyFrom k fuel = some j → k ≤ j.toNat ∧ s.isPressed j = true ∧
      ∀ i : Nibble, k ≤ i.toNat → i.toNat < j.toNat → s.isPressed i = false) ∧
    (s.firstKeyFrom k fuel = none →
      ∀ i : Nibble, k ≤ i.toNat → i.toNat < k + fuel → s.isPressed i = false) := by
  induction fuel generalizing k with
  | zero => exact ⟨fun j hj => by simp [State.firstKeyFrom] at hj, fun _ i h1 h2 => by omega⟩
  | succ fuel ih =>
    have hk : (BitVec.ofNat 4 k).toNat = k := by simp; omega
    rw [State.firstKeyFrom]
    by_cases hp : s.isPressed (BitVec.ofNat 4 k) = true
    · rw [if_pos hp]
      refine ⟨fun j hj => ?_, fun h => by simp at h⟩
      obtain rfl := Option.some.inj hj
      exact ⟨by omega, hp, fun i h1 h2 => by omega⟩
    · rw [if_neg hp]
      have hkf : ∀ i : Nibble, i.toNat = k → s.isPressed i = false := by
        intro i hi
        rw [show i = BitVec.ofNat 4 k from BitVec.eq_of_toNat_eq (by omega)]
        exact Bool.eq_false_of_not_eq_true hp
      obtain ⟨h1, h2⟩ := ih (k + 1) (by omega)
      refine ⟨fun j hj => ?_, fun hn i hi hlt => ?_⟩
      · obtain ⟨ha, hb, hc⟩ := h1 j hj
        refine ⟨by omega, hb, fun i hi hlt => ?_⟩
        by_cases he : i.toNat = k
        · exact hkf i he
        · exact hc i (by omega) hlt
      · by_cases he : i.toNat = k
        · exact hkf i he
        · exact h2 hn i (by omega) (by omega)

/-- `k` is the lowest pressed key. -/
theorem lowestKey_eq_some (s : State) (k : Nibble) :
    s.lowestKey = some k ↔
      s.isPressed k = true ∧ ∀ j : Nibble, j.toNat < k.toNat → s.isPressed j = false := by
  obtain ⟨h1, h2⟩ := firstKeyFrom_spec s 0 16 le_rfl
  constructor
  · intro h
    obtain ⟨_, hb, hc⟩ := h1 k h
    exact ⟨hb, fun j hj => hc j (Nat.zero_le _) hj⟩
  · rintro ⟨hp, hl⟩
    cases hk : s.lowestKey with
    | none => simp [h2 hk k (Nat.zero_le _) (by omega)] at hp
    | some j =>
      obtain ⟨_, hb, hc⟩ := h1 j hk
      have h3 : ¬ k.toNat < j.toNat := fun h => by simp [hc k (Nat.zero_le _) h] at hp
      have h4 : ¬ j.toNat < k.toNat := fun h => by simp [hl j h] at hb
      rw [BitVec.eq_of_toNat_eq (show j.toNat = k.toNat by omega)]

/-- No key is pressed. -/
theorem lowestKey_eq_none (s : State) : s.lowestKey = none ↔ ∀ j, s.isPressed j = false := by
  obtain ⟨h1, h2⟩ := firstKeyFrom_spec s 0 16 le_rfl
  constructor
  · exact fun h j => h2 h j (Nat.zero_le _) (by omega)
  · intro h
    cases hk : s.lowestKey with
    | none => rfl
    | some j => exact absurd (h j) (by simp [(h1 j hk).2.1])

/-- Everything a poll can do. -/
theorem pollKeyboard_cases (s : State) (x : Nibble) :
    (∃ k, s.lowestKey = some k ∧ s.pollKeyboard x = (s.writeV x (k.setWidth 8)).setWait .running) ∨
    (s.lowestKey = none ∧ s.pollKeyboard x = s) := by
  unfold State.pollKeyboard
  split
  · exact .inl ⟨_, ‹_›, rfl⟩
  · exact .inr ⟨‹_›, rfl⟩

/-! ## Dispatch and step -/

theorem execWord_ok {op : Word} {i : Instr} (h : decode op = .ok i) (s : State) :
    execWord op s = exec i s := by
  simp [execWord, h]

theorem execWord_error {op : Word} {e : DecodeReject} (h : decode op = .error e) (s : State) :
    execWord op s = .next s := by
  simp [execWord, execNoOperation, h]

/-- Everything a dispatch can do. -/
theorem execWord_cases (op : Word) (s : State) :
    (∃ i, decode op = .ok i ∧ execWord op s = exec i s) ∨
    ((∃ e, decode op = .error e) ∧ execWord op s = .next s) := by
  cases h : decode op with
  | ok i => exact .inl ⟨i, rfl, execWord_ok h s⟩
  | error e => exact .inr ⟨⟨e, rfl⟩, execWord_error h s⟩

theorem interpreterStep_running {s : State} (h : s.wait = .running) :
    interpreterStep s = withTimers (execWord s.fetch s.advancePC) := by
  simp [interpreterStep, h]

theorem interpreterStep_awaiting {s : State} {x : Nibble} (h : s.wait = .awaitingKey x) :
    interpreterStep s = .next (s.pollKeyboard x).advanceTimers := by
  simp [interpreterStep, h]

theorem step_of_nil {s : State} (h : s.pending = []) : step s = interpreterStep s := by
  simp [step, nextEvent, h]

theorem step_of_cons {s : State} {a : Transaction} {rest : List Transaction}
    (h : s.pending = a :: rest) : step s = transact a { s with pending := rest } := by
  simp [step, nextEvent, h]

/-! ## Runs -/

@[simp] theorem run_zero (s : State) : Host.Core.run Sys2Proof.core 0 s = .next s := rfl

/-- A run of one more event is that event and then the rest. -/
theorem run_succ_of_step {s t : State} (h : step s = .next t) (k : Nat) :
    Host.Core.run Sys2Proof.core (k + 1) s = Host.Core.run Sys2Proof.core k t := by
  have h' : Sys2Proof.core.step s = .next t := h
  simp only [Host.Core.run, h']

/-- Of a state that never executes `p` in its next `count + 1` events, the next state never does in
the `count` after. -/
theorem noneExecuted_tail {s t : State} {count : Nat} {p : Instr → Prop} (hs : step s = .next t)
    (h : s.NoneExecuted (count + 1) p) : t.NoneExecuted count p :=
  fun k u i hk hr => h (k + 1) u i (by omega) (by rw [run_succ_of_step hs]; exact hr)

/-- Nor does the state itself execute `p`. -/
theorem noneExecuted_head {s : State} {count : Nat} {p : Instr → Prop}
    (h : s.NoneExecuted (count + 1) p) (hw : s.wait = .running) {i : Instr}
    (hd : decode s.fetch = .ok i) : ¬ p i :=
  h 0 s i (by omega) rfl hw hd

end Sys2Proof.Machine
end

