-- ==== Sys2Proof/Tests/Slice0.lean ====
section
/-! SUPPORT. The model's own tests. Expected results come from the spec: words written out from the
encodings of spec 30 R51 to R56, the vectors of spec 95 (its section is named at each group), and
the worked lines of the rules. Each test is about one step or one operation. The witnesses at the
end are concrete states that meet the hypotheses of the obligations. -/

namespace Sys2Proof.Tests

open Sys2Proof Sys2Proof.Machine

/-! ## Helpers -/

/-- What `f` sees of an outcome's next state; `none` where the step stops. -/
def seen {α : Type} (f : State → α) : Host.Outcome State Fault Refusal → Option α
  | .next t => some (f t)
  | _ => none

/-- What `f` sees after one step of `s` with the opcode `op` placed at its `PC`. -/
def ran {α : Type} (s : State) (op : Nat) (f : State → α) : Option α :=
  seen f (step (s.withFetchWord 16 op))

/-- The power-on state with some V registers set. -/
def withV (l : List (Nibble × Byte)) : State := l.foldl (fun s p => s.writeV p.1 p.2) State.reset

/-- The power-on state with some keys pressed. -/
def withKeys (l : List Nibble) : State := l.foldl (fun s k => s.setKey k true) State.reset

/-! ## WellFormed refuses an ill-formed term at each check (spec 30 R52) -/

theorem test_wellFormed_accepts_largest :
    [Operands.none 15, .x 15, .xkk 15 255, .xy 15 15, .xyn 15 15 15, .nnn 4095].all
      Operands.wellFormed = true := by decide
theorem test_wellFormed_refuses_ignored : (Operands.none 16).wellFormed = false := by decide
theorem test_wellFormed_refuses_x : (Operands.x 16).wellFormed = false := by decide
theorem test_wellFormed_refuses_xkk_x : (Operands.xkk 16 0).wellFormed = false := by decide
theorem test_wellFormed_refuses_xkk_kk : (Operands.xkk 0 256).wellFormed = false := by decide
theorem test_wellFormed_refuses_xy_x : (Operands.xy 16 0).wellFormed = false := by decide
theorem test_wellFormed_refuses_xy_y : (Operands.xy 0 16).wellFormed = false := by decide
theorem test_wellFormed_refuses_xyn_x : (Operands.xyn 16 0 0).wellFormed = false := by decide
theorem test_wellFormed_refuses_xyn_y : (Operands.xyn 0 16 0).wellFormed = false := by decide
theorem test_wellFormed_refuses_xyn_n : (Operands.xyn 0 0 16).wellFormed = false := by decide
theorem test_wellFormed_refuses_nnn : (Operands.nnn 4096).wellFormed = false := by decide

/-! ## Decoding: each row's word, written out field by field from its pattern (spec 30 R55) -/

theorem test_decode_control :
    decode (0x0#4 ++ 0xA#4 ++ 0xE0#8) = .ok (.cls 0xA#4) ∧
    decode (0x0#4 ++ 0x0#4 ++ 0xEE#8) = .ok (.ret 0x0#4) ∧
    decode (0x1#4 ++ 0x9A5#12) = .ok (.jpAddr 0x9A5#12) ∧
    decode (0x2#4 ++ 0xC31#12) = .ok (.callAddr 0xC31#12) ∧
    decode (0x3#4 ++ 0xB#4 ++ 0x1D#8) = .ok (.seVxByte 0xB#4 0x1D#8) ∧
    decode (0x4#4 ++ 0x6#4 ++ 0x8E#8) = .ok (.sneVxByte 0x6#4 0x8E#8) ∧
    decode (0x5#4 ++ 0xC#4 ++ 0x3#4 ++ 0x0#4) = .ok (.seVxVy 0xC#4 0x3#4) ∧
    decode (0x9#4 ++ 0x2#4 ++ 0xE#4 ++ 0x0#4) = .ok (.sneVxVy 0x2#4 0xE#4) ∧
    decode (0xB#4 ++ 0x57C#12) = .ok (.jpV0Addr 0x57C#12) := by decide
theorem test_decode_load :
    decode (0x6#4 ++ 0xA#4 ++ 0xAB#8) = .ok (.ldVxByte 0xA#4 0xAB#8) ∧
    decode (0x7#4 ++ 0x4#4 ++ 0xF1#8) = .ok (.addVxByte 0x4#4 0xF1#8) ∧
    decode (0xC#4 ++ 0x9#4 ++ 0x3E#8) = .ok (.rndVxByte 0x9#4 0x3E#8) := by decide
theorem test_decode_alu :
    decode (0x8#4 ++ 0xC#4 ++ 0xA#4 ++ 0x0#4) = .ok (.ldVxVy 0xC#4 0xA#4) ∧
    decode (0x8#4 ++ 0x1#4 ++ 0xE#4 ++ 0x1#4) = .ok (.orVxVy 0x1#4 0xE#4) ∧
    decode (0x8#4 ++ 0xD#4 ++ 0x2#4 ++ 0x2#4) = .ok (.andVxVy 0xD#4 0x2#4) ∧
    decode (0x8#4 ++ 0x3#4 ++ 0xC#4 ++ 0x3#4) = .ok (.xorVxVy 0x3#4 0xC#4) ∧
    decode (0x8#4 ++ 0xB#4 ++ 0x4#4 ++ 0x4#4) = .ok (.addVxVy 0xB#4 0x4#4) ∧
    decode (0x8#4 ++ 0x5#4 ++ 0xA#4 ++ 0x5#4) = .ok (.subVxVy 0x5#4 0xA#4) ∧
    decode (0x8#4 ++ 0x9#4 ++ 0x6#4 ++ 0x6#4) = .ok (.shrVxVy 0x9#4 0x6#4) ∧
    decode (0x8#4 ++ 0x7#4 ++ 0x8#4 ++ 0x7#4) = .ok (.subnVxVy 0x7#4 0x8#4) ∧
    decode (0x8#4 ++ 0xA#4 ++ 0xB#4 ++ 0xE#4) = .ok (.shlVxVy 0xA#4 0xB#4) := by decide
theorem test_decode_index_memory :
    decode (0xA#4 ++ 0x6B2#12) = .ok (.ldIAddr 0x6B2#12) ∧
    decode (0xF#4 ++ 0x2#4 ++ 0x1E#8) = .ok (.addIVx 0x2#4) ∧
    decode (0xF#4 ++ 0xD#4 ++ 0x29#8) = .ok (.ldFVx 0xD#4) ∧
    decode (0xF#4 ++ 0x7#4 ++ 0x33#8) = .ok (.ldBVx 0x7#4) ∧
    decode (0xF#4 ++ 0xE#4 ++ 0x55#8) = .ok (.ldMemIVx 0xE#4) ∧
    decode (0xF#4 ++ 0x5#4 ++ 0x65#8) = .ok (.ldVxMemI 0x5#4) := by decide
theorem test_decode_display :
    decode (0xD#4 ++ 0x3#4 ++ 0xC#4 ++ 0x5#4) = .ok (.drwVxVyN 0x3#4 0xC#4 0x5#4) := by decide
theorem test_decode_keyboard_timers :
    decode (0xE#4 ++ 0x4#4 ++ 0x9E#8) = .ok (.skpVx 0x4#4) ∧
    decode (0xE#4 ++ 0xB#4 ++ 0xA1#8) = .ok (.sknpVx 0xB#4) ∧
    decode (0xF#4 ++ 0x6#4 ++ 0x07#8) = .ok (.ldVxDt 0x6#4) ∧
    decode (0xF#4 ++ 0x3#4 ++ 0x0A#8) = .ok (.ldVxK 0x3#4) ∧
    decode (0xF#4 ++ 0x9#4 ++ 0x15#8) = .ok (.ldDtVx 0x9#4) ∧
    decode (0xF#4 ++ 0xC#4 ++ 0x18#8) = .ok (.ldStVx 0xC#4) := by decide

/-- One word of each family written out bit by bit (spec 30 R51, R55). -/
theorem test_decode_bits :
    decode 0b0011101100011101#16 = .ok (.seVxByte 0b1011#4 0b00011101#8) ∧
    decode 0b1000101001010111#16 = .ok (.subnVxVy 0b1010#4 0b0101#4) ∧
    decode 0b1010011010110010#16 = .ok (.ldIAddr 0b011010110010#12) ∧
    decode 0b1101001111000101#16 = .ok (.drwVxVyN 0b0011#4 0b1100#4 0b0101#4) ∧
    decode 0b1111001100001010#16 = .ok (.ldVxK 0b0011#4) := by decide

/-- Unassigned opcodes of spec 95 section 2.1 have no row. -/
theorem test_decode_unassigned :
    [0x0000#16, 0x0123#16, 0x00E1#16, 0x00FE#16, 0x5AB1#16, 0x8AB8#16, 0x8AB9#16, 0x9AB1#16,
     0xE19F#16, 0xE000#16, 0xF1FF#16, 0xF000#16, 0xF075#16, 0xF085#16].all
      (fun op => decode op == .error (.unassigned (keyOf op))) = true := by decide

/-- The bytes of an opcode lie high byte first (spec 30 R51), and a short list is refused. -/
theorem test_decodeBytes_high_byte_first :
    decodeBytes [0x6A#8, 0xAB#8, 0x99#8] = .ok (.ldVxByte 0xA#4 0xAB#8, [0x99#8]) ∧
    decodeBytes [0x6A#8] = .error .truncated := by decide

/-- The 34 mnemonics of the table are 34 rows, and no two rows share a key (spec 30 R55). -/
theorem test_table_has_34_rows : opcodeTable.length = 34 ∧ (opcodeTable.map Row.key).Nodup := by
  decide

/-! ## Control flow (spec 95 section 2.3) -/

/-- `PC` at 0x300 with `n` return addresses held, entry `k` of the stack being `v`. -/
def withStack (n : Fin 17) (k : Fin 16) (v : Word) : State :=
  { State.reset with PC := 0x300#16, SP := n, stack := State.reset.stack.set k v }

theorem test_ret_pops :
    ran (withStack 16 15 0x10F#16) 0x00EE
      (fun t => (t.PC, t.SP, t.stack[15])) = some (0x10F#16, 15, 0x10F#16) := by decide
theorem test_ret_empty_stack :
    ran (withStack 0 0 0x10F#16) 0x00EE (fun t => (t.PC, t.SP)) = some (0x302#16, 0) := by decide
theorem test_jp :
    ran State.reset 0x1FFF (fun t => t.PC) = some 0xFFF#16 := by decide
theorem test_jp_to_itself :
    ran State.reset 0x1200 (fun t => t.PC) = some 0x200#16 := by decide
theorem test_call_last_entry :
    ran (withStack 15 14 0x111#16) 0x2ABC
      (fun t => (t.PC, t.SP, t.stack[15])) = some (0xABC#16, 16, 0x302#16) := by decide
theorem test_call_full_stack :
    ran (withStack 16 15 0x111#16) 0x2ABC
      (fun t => (t.PC, t.SP, t.stack[15])) = some (0xABC#16, 16, 0x111#16) := by decide
theorem test_se_byte_wraps :
    ran { State.reset with PC := 0xFFFE#16 } 0x3300 (fun t => t.PC) = some 0x2#16 := by decide
theorem test_se_byte_unequal :
    ran (withV [(0x3#4, 0x42#8)]) 0x3343 (fun t => t.PC) = some 0x202#16 := by decide
theorem test_sne_byte_equal :
    ran (withV [(0x3#4, 0x42#8)]) 0x4342 (fun t => t.PC) = some 0x202#16 := by decide
theorem test_sne_byte_unequal :
    ran (withV [(0x3#4, 0x42#8)]) 0x4343 (fun t => t.PC) = some 0x204#16 := by decide
theorem test_se_reg_equal :
    ran (withV [(0x1#4, 0x07#8), (0x2#4, 0x07#8)]) 0x5120 (fun t => t.PC) = some 0x204#16 := by decide
theorem test_se_reg_unequal :
    ran (withV [(0x1#4, 0x07#8), (0x2#4, 0x08#8)]) 0x5120 (fun t => t.PC) = some 0x202#16 := by decide
theorem test_sne_reg_equal :
    ran (withV [(0x1#4, 0x07#8), (0x2#4, 0x07#8)]) 0x9120 (fun t => t.PC) = some 0x202#16 := by decide
theorem test_sne_reg_unequal :
    ran (withV [(0x1#4, 0x07#8), (0x2#4, 0x08#8)]) 0x9120 (fun t => t.PC) = some 0x204#16 := by decide
theorem test_jp_v0_not_masked :
    ran (withV [(0x0#4, 0xFF#8)]) 0xBFFF (fun t => t.PC) = some 0x10FE#16 := by decide

/-! ## Load, arithmetic, logic, shift, random (spec 95 section 2.4) -/

theorem test_ld_byte :
    ran State.reset 0x6AAB (fun t => (t.readV 0xA#4, t.PC)) = some (0xAB#8, 0x202#16) := by decide
theorem test_add_byte_no_flag :
    ran (withV [(0x2#4, 0xFF#8), (0xF#4, 0x01#8)]) 0x7201
      (fun t => (t.readV 2#4, t.readV 0xF#4)) = some (0x00#8, 0x01#8) := by decide
theorem test_add_byte_to_vf :
    ran (withV [(0xF#4, 0xFF#8)]) 0x7F01 (fun t => t.readV 0xF#4) = some 0x00#8 := by decide
theorem test_ld_reg :
    ran (withV [(0xA#4, 0xAB#8)]) 0x8CA0
      (fun t => (t.readV 0xC#4, t.readV 0xA#4)) = some (0xAB#8, 0xAB#8) := by decide
theorem test_or_keeps_vf :
    ran (withV [(0x1#4, 0xF0#8), (0x2#4, 0x0F#8), (0xF#4, 0x01#8)]) 0x8121
      (fun t => (t.readV 1#4, t.readV 0xF#4)) = some (0xFF#8, 0x01#8) := by decide
theorem test_and_keeps_vf :
    ran (withV [(0x1#4, 0xF3#8), (0x2#4, 0x3F#8), (0xF#4, 0x01#8)]) 0x8122
      (fun t => (t.readV 1#4, t.readV 0xF#4)) = some (0x33#8, 0x01#8) := by decide
theorem test_xor_keeps_vf :
    ran (withV [(0x1#4, 0xFF#8), (0x2#4, 0x0F#8), (0xF#4, 0x01#8)]) 0x8123
      (fun t => (t.readV 1#4, t.readV 0xF#4)) = some (0xF0#8, 0x01#8) := by decide
theorem test_add_reg_carry :
    ran (withV [(0xA#4, 0xC2#8), (0xB#4, 0x53#8)]) 0x8AB4
      (fun t => (t.readV 0xA#4, t.readV 0xF#4)) = some (0x15#8, 0x01#8) := by decide
theorem test_add_reg_into_vf :
    ran (withV [(0xF#4, 0xF0#8), (0x1#4, 0x20#8)]) 0x8F14 (fun t => t.readV 0xF#4) = some 0x10#8 := by decide
theorem test_sub_equal_clears_flag :
    ran (withV [(0x1#4, 0x33#8), (0x2#4, 0x33#8), (0xF#4, 0x01#8)]) 0x8125
      (fun t => (t.readV 1#4, t.readV 0xF#4)) = some (0x00#8, 0x00#8) := by decide
theorem test_sub_reads_old_vf :
    ran (withV [(0x1#4, 0x05#8), (0xF#4, 0x01#8)]) 0x81F5
      (fun t => (t.readV 1#4, t.readV 0xF#4)) = some (0x04#8, 0x01#8) := by decide
theorem test_shr_source_is_vy :
    ran (withV [(0x2#4, 0x05#8)]) 0x8126
      (fun t => (t.readV 1#4, t.readV 2#4, t.readV 0xF#4)) = some (0x02#8, 0x05#8, 0x01#8) := by decide
theorem test_shr_reads_old_vf :
    ran (withV [(0xF#4, 0x03#8), (0x1#4, 0x77#8)]) 0x81F6
      (fun t => (t.readV 1#4, t.readV 0xF#4)) = some (0x01#8, 0x01#8) := by decide
theorem test_subn :
    ran (withV [(0x1#4, 0x20#8), (0x2#4, 0x10#8)]) 0x8127
      (fun t => (t.readV 1#4, t.readV 0xF#4)) = some (0xF0#8, 0x00#8) := by decide
theorem test_subn_into_vf :
    ran (withV [(0xF#4, 0x03#8), (0x1#4, 0x05#8)]) 0x8F17 (fun t => t.readV 0xF#4) = some 0x02#8 := by decide
theorem test_shl_source_is_vy :
    ran (withV [(0x2#4, 0x81#8)]) 0x812E
      (fun t => (t.readV 1#4, t.readV 2#4, t.readV 0xF#4)) = some (0x02#8, 0x81#8, 0x01#8) := by decide
theorem test_shl_into_vf :
    ran (withV [(0x2#4, 0x81#8)]) 0x8F2E (fun t => t.readV 0xF#4) = some 0x02#8 := by decide
theorem test_rnd_draws_once :
    ran State.reset 0xC30F (fun t => t.rng.draws) = some 1 := by decide

/-! ## Index register and memory (spec 95 section 2.5) -/

/-- The power-on state with `I` set, some V registers set and some bytes stored. -/
def withI (i : Word) (regs : List (Nibble × Byte)) (a : Nat) (bytes : List Byte) : State :=
  ((withV regs).setI i).storeBytes a bytes

theorem test_ld_i :
    ran State.reset 0xAFFF (fun t => t.I) = some 0xFFF#16 := by decide
theorem test_add_i_wraps_no_flag :
    ran (withI 0xFF0#16 [(0x2#4, 0x20#8)] 0x300 []) 0xF21E
      (fun t => (t.I, t.readV 0xF#4)) = some (0x010#16, 0x00#8) := by decide
theorem test_add_i_vf_operand :
    ran (withI 0xF01#16 [(0xF#4, 0xFF#8)] 0x300 []) 0xFF1E
      (fun t => (t.I, t.readV 0xF#4)) = some (0x000#16, 0xFF#8) := by decide
theorem test_ld_f_low_nibble :
    ran (withV [(0x4#4, 0x1A#8)]) 0xF429 (fun t => t.I) = some 0x032#16 := by decide
theorem test_ld_f_last_glyph :
    ran (withV [(0x4#4, 0xFF#8)]) 0xF429 (fun t => t.I) = some 0x04B#16 := by decide
theorem test_bcd :
    ran (withI 0x800#16 [(0x0#4, 0xFF#8)] 0x300 []) 0xF033
      (fun t => (t.loadByte 0x800, t.loadByte 0x801, t.loadByte 0x802)) = some (2#8, 5#8, 5#8) := by decide
theorem test_bcd_wraps_into_font :
    ran (withI 0xFFE#16 [(0x7#4, 0x9C#8)] 0x300 []) 0xF733
      (fun t => ([0xFFE, 0xFFF, 0x000].map t.loadByte, t.I)) = some ([1#8, 5#8, 6#8], 0xFFE#16) := by decide
theorem test_store_regs :
    ran (withI 0x300#16 [(0x0#4, 0x11#8), (0x1#4, 0x22#8), (0x2#4, 0x33#8), (0x3#4, 0x44#8)] 0x300 []) 0xF255
      (fun t => ([0x300, 0x301, 0x302, 0x303].map t.loadByte, t.I)) = some ([0x11#8, 0x22#8, 0x33#8, 0#8], 0x303#16) := by decide
theorem test_store_regs_wraps :
    ran (withI 0xFFE#16 [(0x0#4, 0x01#8), (0x1#4, 0x02#8), (0x2#4, 0x03#8), (0x3#4, 0x04#8)] 0x300 []) 0xF355
      (fun t => ([0xFFE, 0xFFF, 0x000, 0x001].map t.loadByte, t.I)) = some ([1#8, 2#8, 3#8, 4#8], 0x002#16) := by decide
theorem test_load_regs :
    ran (withI 0x300#16 [(0x3#4, 0x55#8)] 0x300 [0xAA#8, 0xBB#8, 0xCC#8, 0xDD#8]) 0xF265
      (fun t => ([0#4, 1#4, 2#4, 3#4].map t.readV, t.I)) = some ([0xAA#8, 0xBB#8, 0xCC#8, 0x55#8], 0x303#16) := by decide
theorem test_load_regs_wraps :
    ran (withI 0xFFE#16 [] 0xFFE [0x0A#8, 0x0B#8]) 0xF365
      (fun t => ([0#4, 1#4, 2#4, 3#4].map t.readV, t.I)) = some ([0x0A#8, 0x0B#8, 0xF0#8, 0x90#8], 0x002#16) := by decide

/-! ## Display (spec 95 section 2.6); a framebuffer literal has bit `64 * y + x` for each lit pixel -/

/-- The pixels lit by spec 95 section 2.6 for CLS: (0,0), (5,7), (63,31). -/
def threeLit : Framebuffer := 1#2048 ||| (1#2048 <<< (64 * 7 + 5)) ||| (1#2048 <<< 2047)

theorem test_cls_clears_and_keeps_vf :
    ran ((withV [(0xF#4, 0x01#8)]).setFB threeLit) 0x00E0
      (fun t => (t.fb, t.readV 0xF#4)) = some (0#2048, 0x01#8) := by decide +kernel
theorem test_cls_ignores_bits_11_to_8 :
    ran (State.reset.setFB 1#2048) 0x05E0 (fun t => t.fb) = some 0#2048 := by decide +kernel
theorem test_drw_wraps_in_x :
    ran (withI 0x300#16 [(0x0#4, 0x3C#8)] 0x300 [0xFF#8]) 0xD011
      (fun t => (t.fb, t.readV 0xF#4)) = some (0xF00000000000000F#2048, 0#8) := by decide +kernel
theorem test_drw_reads_old_vf_and_clears_it :
    ran (withI 0x300#16 [(0xF#4, 0x03#8), (0x1#4, 0x01#8)] 0x300 [0x80#8]) 0xDF11
      (fun t => (t.fb, t.readV 0xF#4)) = some (1#2048 <<< 67, 0#8) := by decide +kernel

/-! ## Keyboard and timer instructions (spec 95 sections 2.7, 2.8) -/

theorem test_skp_low_nibble :
    ran ((withKeys [0x5#4]).writeV 0x2#4 0x15#8) 0xE29E (fun t => t.PC) = some 0x204#16 := by decide
theorem test_skp_other_key :
    ran ((withKeys [0xF#4]).writeV 0x2#4 0x05#8) 0xE29E (fun t => t.PC) = some 0x202#16 := by decide
theorem test_sknp_low_nibble :
    ran ((withKeys [0x5#4]).writeV 0x2#4 0x25#8) 0xE2A1 (fun t => t.PC) = some 0x202#16 := by decide
theorem test_sknp_no_key :
    ran (withV [(0x2#4, 0x05#8)]) 0xE2A1 (fun t => t.PC) = some 0x204#16 := by decide
theorem test_ld_dt_read_before_tick :
    ran { State.reset with DT := 5#8, nowMs := 17 } 0xF307
      (fun t => (t.readV 3#4, t.DT)) = some (5#8, 4#8) := by decide
theorem test_ld_dt_written_before_tick :
    ran { withV [(3#4, 5#8)] with nowMs := 17 } 0xF315
      (fun t => (t.DT, t.anchor3)) = some (4#8, 50) := by decide
theorem test_ld_st :
    ran (withV [(0x3#4, 0x0A#8)]) 0xF318 (fun t => (t.ST, t.DT)) = some (0x0A#8, 0#8) := by decide
theorem test_key_wait_enters :
    ran (withKeys [5#4]) 0xF30A
      (fun t => (t.wait, t.PC, t.readV 3#4)) = some (.awaitingKey 3#4, 0x202#16, 0#8) := by decide
theorem test_key_wait_takes_lowest :
    seen (fun t => (t.readV 3#4, t.wait, t.PC))
      (step { withKeys [9#4, 4#4, 0xC#4] with wait := .awaitingKey 3#4, PC := 0x202#16 }) =
      some (0x04#8, .running, 0x202#16) := by decide

/-! ## Fetch, no-operation, host (spec 95 sections 2.1, 2.2, 2.8, 2.9) -/

theorem test_fetch_wraps :
    ran ({ State.reset with PC := 0xFFF#16 }.storeByte 0xFFF 0x60#8) 0x60F0
      (fun t => (t.readV 0#4, t.PC)) = some (0xF0#8, 0x1001#16) := by decide
theorem test_unassigned_is_no_operation :
    ran (withI 0x123#16 [(1#4, 0x55#8), (0xF#4, 1#8)] 0x300 []) 0x5121
      (fun t => (t.PC, t.I, t.readV 1#4, t.readV 0xF#4)) =
      some (0x202#16, 0x123#16, 0x55#8, 1#8) := by decide
theorem test_load_byte_wraps : State.reset.loadByte 0x1000 = 0xF0#8 := by decide
theorem test_store_byte_wraps :
    seen (fun t => t.loadByte 0x234) (transact (.storeByte 0x1234 0xAB#8) State.reset) =
      some 0xAB#8 := by decide
theorem test_load_word_wraps : (State.reset.storeByte 0xFFF 0x12#8).loadWord 0xFFF = 0x12F0#16 := by
  decide
theorem test_store_bytes_wraps :
    seen (fun t => [0xFFE, 0xFFF, 0x000, 0x001].map t.loadByte)
      (transact (.storeBytes 0xFFE [1#8, 2#8, 3#8, 4#8]) State.reset) =
      some [1#8, 2#8, 3#8, 4#8] := by decide
theorem test_store_words_endian :
    seen (fun t => t.loadWord 0x200) (transact (.storeWords 0x200 [0x6AAB#16] .big) State.reset) =
      some 0x6AAB#16 ∧
    seen (fun t => t.loadWord 0x200) (transact (.storeWords 0x200 [0x6AAB#16] .little) State.reset) =
      some 0xAB6A#16 := by decide
theorem test_font_check_values :
    [0x000, 0x005, 0x03C, 0x03D, 0x04B, 0x04F, 0x050].map State.reset.loadByte =
      [0xF0#8, 0x20#8, 0xF0#8, 0x80#8, 0xF0#8, 0x80#8, 0x00#8] := by decide
/-- `now_ms`, the anchor before, and the ticks (the table of spec 95 section 2.8). -/
theorem test_tick_counts :
    [(0, 0), (16, 0), (17, 0), (33, 50), (34, 50), (50, 0), (1000, 0), (50, 300), (100, 300),
     (117, 300)].map (fun p => tickCount p.1 p.2) = [0, 0, 1, 0, 1, 3, 60, 0, 0, 1] := by decide
theorem test_timers_stop_at_zero :
    let t := ({ State.reset with DT := 5#8, ST := 1#8, nowMs := 50 } : State).advanceTimers
    (t.DT, t.ST, t.anchor3) = (2#8, 0#8, 150) := by decide
theorem test_reset_keeps_memory_latch_anchor :
    seen (fun t => (t.PC, t.wait, t.loadByte 0, t.isPressed 2#4, t.anchor3))
      (transact .reset { (withKeys [2#4]).storeByte 0 0x01#8 with
        PC := 0x20C#16, I := 1#16, SP := 1, wait := .awaitingKey 1#4, anchor3 := 50 }) =
      some (0x200#16, .running, 0x01#8, true, 50) := by decide
theorem test_power_on_restores_font :
    seen (fun t => (t.loadByte 0, t.isPressed 2#4, t.rng))
      (transact (.powerOn 7) ((withKeys [2#4]).storeByte 0 0x01#8)) =
      some (0xF0#8, false, { seed := 7, draws := 0 }) := by decide
/-- A byte written back to its power-on value leaves no entry: equal memories are equal data. -/
theorem test_memory_is_canonical :
    ((State.reset.storeByte 0x1000 0x01#8).storeByte 0x0000 0xF0#8).mem = State.reset.mem := by decide
/-- The observation port reads the hidden state too (spec 10 R27). -/
theorem test_observe_reads_hidden_state :
    let s : State := { withStack 2 1 0x456#16 with
      ST := 7#8, wait := .awaitingKey 3#4, rng := { seed := 9, draws := 4 }, anchor3 := 150 }
    (s.observe.SP, s.observe.stack[1], s.observe.ST) = (2#8, 0x456#16, 7#8) ∧
    (s.observe.wait, s.observe.rng, s.observe.anchor3) =
      (.awaitingKey 3#4, { seed := 9, draws := 4 }, 150) := by decide
theorem test_store_words_changes_nothing_else :
    seen (fun t => [0x1FF, 0x200, 0x201, 0x202].map t.loadByte)
      (transact (.storeWords 0x200 [0x6AAB#16] .big)
        ((State.reset.storeByte 0x1FF 1#8).storeByte 0x202 2#8)) =
      some [1#8, 0x6A#8, 0xAB#8, 2#8] := by decide
theorem test_pending_transaction_comes_first :
    seen (fun t => (t.PC, t.isPressed 5#4, t.pending))
      (step { State.reset with pending := [.setKey 5#4 true, .step 0] }) =
      some (0x200#16, true, [.step 0]) := by decide

/-! ## Witnesses: concrete states that meet the hypotheses of the obligations, clause by clause -/

/-- The selection hypotheses: every row's match word is selected by its own mask. -/
theorem test_witness_SelectsAs : opcodeTable.all (fun r => r.key &&& r.mask == r.key) = true := by
  decide

theorem test_witness_EncodeOfDecode : decode 0xDFFF#16 = .ok (.drwVxVyN 0xF#4 0xF#4 0xF#4) := by
  decide

/-- The largest tuple of each shape. -/
theorem test_witness_OperandTuples :
    [((.cls 0#4 : Instr), Operands.none 15), (.skpVx 0#4, .x 15), (.ldVxByte 0#4 0#8, .xkk 15 255),
     (.addVxVy 0#4 0#4, .xy 15 15), (.drwVxVyN 0#4 0#4 0#4, .xyn 15 15 15),
     (.jpAddr 0#12, .nnn 4095)].all
      (fun p => p.2.wellFormed && p.2.shape == p.1.operands.shape) = true := by decide

/-- Both ends of the clause `0 < SP`, and its complement. -/
theorem test_witness_Return : 0 < (withStack 1 0 0#16).SP.val ∧ 0 < (withStack 16 0 0#16).SP.val ∧
    (withStack 0 0 0#16).SP.val = 0 := by decide

/-- Both ends of the clause `SP < 16`, and its complement. -/
theorem test_witness_Call : (withStack 0 0 0#16).SP.val < 16 ∧ (withStack 15 0 0#16).SP.val < 16 ∧
    (withStack 16 0 0#16).SP.val = 16 := by decide

theorem test_witness_ReturnUndoesCall :
    ∃ t u, State.reset.SP.val < 16 ∧ exec (.callAddr 0x300#12) State.reset = .next t ∧
      u.SP = t.SP ∧ u.stack = t.stack ∧ u ≠ t :=
  ⟨(State.reset.push 0x200#16).setPC 0x300#16, (State.reset.push 0x200#16).setPC 0x302#16,
    by decide, rfl, by decide, by decide, by decide⟩

/-- A destination other than VF, as the flag clauses ask. -/
theorem test_witness_flag_clause : (0xE#4 : Nibble) ≠ 0xF#4 := by decide

theorem test_witness_OnlySix :
    (Instr.addVxVy 0xE#4 0x1#4).writesFlag = true ∧
    (Instr.addVxVy 0xE#4 0x1#4).destination 0xF#4 = false ∧
    (Instr.ldVxMemI 0xE#4).destination 0xF#4 = false ∧ (Instr.ldVxMemI 0xE#4).writesFlag = false ∧
    (∃ t, exec (.addVxVy 0xE#4 0x1#4) State.reset = .next t) ∧
    (∃ t, exec (.ldVxMemI 0xE#4) State.reset = .next t) :=
  ⟨by decide, by decide, by decide, by decide, ⟨_, rfl⟩, ⟨_, rfl⟩⟩

theorem test_witness_BcdDigits : ∃ t, exec (.ldBVx 0xF#4) (withV [(0xF#4, 255#8)]) = .next t :=
  ⟨_, rfl⟩

/-- The block clauses at both ends: `x` = 0 and `x` = 15. -/
theorem test_witness_block : (0#4 : Nibble).toNat ≤ (0#4 : Nibble).toNat ∧
    (0xF#4 : Nibble).toNat ≤ (0xF#4 : Nibble).toNat := by decide

theorem test_witness_LoadUndoesStore :
    ∃ t u, exec (.ldMemIVx 0xF#4) (withI 0xFFE#16 [(3#4, 9#8)] 0x300 []) = .next t ∧
      u.mem = t.mem ∧ u.I = 0xFFE#16 ∧ u ≠ t := by
  refine ⟨_, State.setI _ 0xFFE#16, rfl, rfl, rfl, fun h => ?_⟩
  exact absurd (congrArg State.I h) (by decide)

/-- Both clauses of the collision: a lit pixel cleared, and none (spec 95 S5). -/
theorem test_witness_Draw :
    seen (fun t => (t.pixel 1 2, t.readV 0xF#4))
      (exec (.drwVxVyN 0#4 1#4 1#4)
        ((withI 0x300#16 [(0#4, 1#8), (1#4, 2#8)] 0x300 [0x80#8]).setFB (1#2048 <<< 129))) =
      some (false, 1#8) ∧
    seen (fun t => (t.pixel 1 2, t.readV 0xF#4))
      (exec (.drwVxVyN 0#4 1#4 1#4) (withI 0x300#16 [(0#4, 1#8), (1#4, 2#8)] 0x300 [0x80#8])) =
      some (true, 0#8) := by decide +kernel

theorem test_witness_DrawTwice :
    ∃ t u, exec (.drwVxVyN 0#4 0#4 5#4) State.reset = .next t ∧
      exec (.drwVxVyN 0#4 0#4 5#4) { t with V := State.reset.V } = .next u := ⟨_, _, rfl, rfl⟩

/-- A running state with nothing pending whose fetched opcode decodes to each instruction that a
statement about a step names. -/
theorem test_witness_fetched :
    [(0xF307, Instr.ldVxDt 3#4), (0xF315, .ldDtVx 3#4), (0xF318, .ldStVx 3#4)].all
      (fun p => (State.reset.withFetchWord 16 p.1).pending == [] &&
        (State.reset.withFetchWord 16 p.1).wait == .running &&
        decode (State.reset.withFetchWord 16 p.1).fetch == .ok p.2) = true := by decide

/-- A waiting state with two keys pressed, 4 the lowest. -/
theorem test_witness_KeyWait :
    let s : State := { withKeys [9#4, 4#4] with wait := .awaitingKey 3#4 }
    s.pending = [] ∧ s.wait = .awaitingKey 3#4 ∧ s.isPressed 4#4 = true ∧
      ∀ j : Nibble, j.toNat < (4#4 : Nibble).toNat → s.isPressed j = false := by decide

/-- A waiting state with no key pressed. -/
theorem test_witness_KeyWait_no_key :
    let s : State := { State.reset with wait := .awaitingKey 0xF#4 }
    s.pending = [] ∧ s.wait = .awaitingKey 0xF#4 ∧ ∀ j : Nibble, s.isPressed j = false := by decide

theorem test_witness_StepRuns :
    let s := State.reset.withFetchWord 16 0x6AAB
    let u : State := { s with pending := [.step 17] }
    s.pending = [] ∧ s.wait = .running ∧ decode s.fetch = .ok (.ldVxByte 0xA#4 0xAB#8) ∧
      u.pending = .step 17 :: [] ∧ u.wait = .running ∧
      decode u.fetch = .ok (.ldVxByte 0xA#4 0xAB#8) := by decide

theorem test_witness_PendingStep :
    ({ State.reset with pending := [.step 17, .reset] } : State).pending =
      .step 17 :: [.reset] := by decide

/-- Reset memory at 0x200 reads 0x0000, an unassigned opcode. -/
theorem test_witness_Unassigned :
    State.reset.pending = [] ∧ State.reset.wait = .running ∧
      opcodeTable.all (fun r => r.key != keyOf State.reset.fetch) = true := by decide

/-- An instruction that is no control transfer, and an unassigned opcode. -/
theorem test_witness_NonBranching :
    (∀ i, decode (State.reset.withFetchWord 16 0x6AAB).fetch = .ok i → i.controlsPC = false) ∧
    (∀ i, decode State.reset.fetch = .ok i → i.controlsPC = false) ∧
    (∃ t, step (State.reset.withFetchWord 16 0x6AAB) = .next t) ∧ (∃ t, step State.reset = .next t) := by
  refine ⟨fun i h => ?_, fun i h => ?_, ⟨_, rfl⟩, ⟨_, rfl⟩⟩
  · have e : decode (State.reset.withFetchWord 16 0x6AAB).fetch = .ok (.ldVxByte 0xA#4 0xAB#8) := by
      decide
    rw [e] at h; injection h with h; subst h; rfl
  · have e : decode State.reset.fetch = .error (.unassigned 0#16) := by decide
    rw [e] at h; injection h

/-- Each part of the state is left out of some instruction's reach: a register other than VF, VF
itself, `I`, and the others. -/
theorem test_witness_OwnParts :
    (Instr.addVxVy 0x1#4 0x2#4).destination 0x2#4 = false ∧
    ((0x2#4 : Nibble) = 0xF#4 → (Instr.addVxVy 0x1#4 0x2#4).writesFlag = false) ∧
    (Instr.ldVxByte 0xE#4 0#8).destination 0xF#4 = false ∧
    ((0xF#4 : Nibble) = 0xF#4 → (Instr.ldVxByte 0xE#4 0#8).writesFlag = false) ∧
    (Instr.ldBVx 0#4).writesIndex = false ∧
    (Instr.jpAddr 0#12).movesStack = false ∧ (Instr.ldVxMemI 0#4).storesMemory = false ∧
    (Instr.skpVx 0#4).writesPixels = false ∧ (Instr.ldVxK 0#4).controlsPC = false ∧
    ∃ t, exec (.jpAddr 0#12) State.reset = .next t :=
  ⟨by decide, by decide, by decide, by decide, by decide, by decide, by decide, by decide, by decide,
    ⟨_, rfl⟩⟩

/-- The invariant holds in a state with a non-empty memory listing, and a step leads on from it. -/
theorem test_witness_StepKeepsTheInvariant :
    (State.reset.storeByte 0xFFF 0xAB#8).Inv ∧
      ∃ t, step (State.reset.storeByte 0xFFF 0xAB#8) = .next t :=
  ⟨⟨by decide, by decide, by decide⟩, ⟨_, rfl⟩⟩

/-- The longest slice and the longest word list of the bulk statements. -/
theorem test_witness_bulk : (List.replicate 4096 0#8).length ≤ 4096 ∧
    2 * (List.replicate 2048 0#16).length ≤ 4096 :=
  ⟨by rw [List.length_replicate], by rw [List.length_replicate]⟩

theorem test_witness_CanonicalMemories :
    let m := (State.reset.storeByte 5 1#8).mem
    m.wf ∧ (State.reset.mem).wf ∧ m.read 5 ≠ State.reset.mem.read 5 := by decide

/-- The clauses of the timer update: time at, after and behind the anchor. -/
theorem test_witness_TimerUpdate :
    let s : State := { State.reset with anchor3 := 300, nowMs := 100 }
    let t : State := { s with nowMs := 117 }
    let u : State := { s with nowMs := 99 }
    s.anchor3 ≤ 3 * s.nowMs ∧ t.anchor3 ≤ 3 * t.nowMs ∧ 3 * u.nowMs < u.anchor3 := by decide

/-- A machine whose next three events are running steps of the unassigned opcode 0x0000, the last
two with a tick due. -/
def threeSteps : State :=
  { State.reset with DT := 5#8, pending := [0, 20, 40].map Transaction.step }

/-- Only 0x0000 is fetched in those events. -/
theorem threeSteps_fetch (k : Nat) (hk : k < 3) :
    seen (fun u => decode u.fetch) (Host.Core.run core k threeSteps) =
      some (.error (.unassigned 0#16)) := by
  revert k; decide

theorem test_witness_TimersFall :
    threeSteps.anchor3 ≤ 3 * threeSteps.nowMs ∧
    3 * threeSteps.nowMs < threeSteps.anchor3 + 50 ∧
    NonDecreasing threeSteps.nowMs [0, 20, 40] ∧
    threeSteps.pending = [0, 20, 40].map Transaction.step ∧
    threeSteps.NoneExecuted 3 (fun i => ∃ x, i = .ldDtVx x) ∧
    threeSteps.NoneExecuted 3 (fun i => ∃ x, i = .ldStVx x) := by
  have none (p : Instr → Prop) : threeSteps.NoneExecuted 3 p := by
    intro k u i hk hr _ hd
    have h := threeSteps_fetch k hk
    rw [hr] at h
    simp [seen, hd] at h
  exact ⟨by decide, by decide, by simp [NonDecreasing, threeSteps, State.reset], rfl, none _, none _⟩

/-- A running step of neither FX15 nor FX18, with a tick due. -/
theorem test_witness_TimersNeverRise :
    let s : State := { State.reset with DT := 5#8, nowMs := 17 }
    s.pending = [] ∧ (s.wait = .running → ∀ x, decode s.fetch ≠ .ok (.ldDtVx x)) ∧
      (s.wait = .running → ∀ x, decode s.fetch ≠ .ok (.ldStVx x)) ∧
      tickCount s.nowMs s.anchor3 = 1 ∧ ∃ t, step s = .next t := by
  have e : decode State.reset.fetch = .error (.unassigned 0#16) := by decide
  refine ⟨rfl, fun _ x h => ?_, fun _ x h => ?_, by decide, ⟨_, rfl⟩⟩
  · cases e.symm.trans h
  · cases e.symm.trans h

theorem test_witness_TimeActsOnly :
    State.reset.pending = [] ∧ tickCount 100 300 = tickCount State.reset.nowMs State.reset.anchor3 ∧
      ∃ t, step State.reset = .next t := ⟨rfl, by decide, ⟨_, rfl⟩⟩

theorem test_witness_KeyWaitHolds :
    let s : State := { State.reset with wait := .awaitingKey 3#4, pending := [.step 17, .step 40] }
    s.wait = .awaitingKey 3#4 ∧ (∀ k, s.isPressed k = false) ∧
      s.pending = [17, 40].map Transaction.step := by decide

theorem test_witness_SetKey :
    ({ State.reset with pending := [.setKey 0xF#4 true] } : State).pending =
      .setKey 0xF#4 true :: [] := by decide

end Sys2Proof.Tests
end

-- Totality: no event of the machine faults or is refused (spec 00 R3, 60 R137).
section

namespace Sys2Proof.Machine

/-- Each of the 34 rows has a handler that answers with a next state (spec 00 R3). -/
theorem exec_succeeds (i : Instr) (s : State) : ∃ t, exec i s = .next t := by
  cases i <;> exact ⟨_, rfl⟩

theorem execWord_succeeds (op : Word) (s : State) : ∃ t, execWord op s = .next t := by
  obtain ⟨i, -, h⟩ | ⟨-, h⟩ := execWord_cases op s
  · rw [h]; exact exec_succeeds i s
  · exact ⟨s, h⟩

/-- A step of the interpreter reports no error, whether it is suspended or runs an opcode
(spec 00 R3). -/
theorem interpreterStep_succeeds (s : State) : ∃ t, interpreterStep s = .next t := by
  cases hw : s.wait with
  | awaitingKey x => exact ⟨_, interpreterStep_awaiting hw⟩
  | running =>
    obtain ⟨u, hu⟩ := execWord_succeeds s.fetch s.advancePC
    exact ⟨u.advanceTimers, by rw [interpreterStep_running hw, hu, withTimers_next]⟩

/-- No transaction of the host is refused; the bulk stores wrap (log entry 20). -/
theorem transact_succeeds (a : Transaction) (s : State) : ∃ t, transact a s = .next t := by
  cases a with
  | step now => exact interpreterStep_succeeds (s.presentTime now)
  | powerOn | reset | setKey | storeByte | storeBytes | storeWords => exact ⟨_, rfl⟩

/-- Settles O43: the next event is a pending transaction or a step of the interpreter, and both
succeed. -/
theorem everyStepSucceeds : Obligations.EveryStepSucceeds := by
  intro s
  cases hp : s.pending with
  | nil => rw [step_of_nil hp]; exact interpreterStep_succeeds s
  | cons a rest => rw [step_of_cons hp]; exact transact_succeeds a _

end Sys2Proof.Machine
end

-- Memory: what a byte write does to the reads, and what a 16-bit read is made of
-- (spec 20 R31 to R34, 40 R62).
section

namespace Sys2Proof.Machine

/-! ## Reads, each at a wrapped address (spec 20 R31) -/

/-- Only the 12 low bits of a read's address count (spec 20 R31, R32). -/
theorem loadByte_mod (s : State) (a : Nat) : s.loadByte (a % 4096) = s.loadByte a :=
  read_wrap s.mem a

/-- A 16-bit read is big-endian (spec 20 R34). -/
theorem toNat_loadWord (s : State) (a : Nat) :
    (s.loadWord a).toNat = 256 * (s.loadByte a).toNat + (s.loadByte (a + 1)).toNat :=
  toNat_wordOfBytes _ _

/-! ## The statements -/

/-- Settles O48: everything a byte write does to the reads, with the two wrapped addresses
compared in the order of the statement. -/
theorem byteWritesAreReadBack : Obligations.ByteWritesAreReadBack := by
  intro s a b v
  refine ⟨?_, (loadByte_mod s a).symm⟩
  have hwrap : Memory.wrap b = Memory.wrap a ↔ a % 4096 = b % 4096 := eq_comm
  simp only [loadByte_storeByte, hwrap]

/-- Settles O40: the fetch is the read at `PC` by definition; in the big-endian sum each byte's
address may be reduced on its own, also where `a + 1` crosses 4096. -/
theorem fetchIsTheBigEndianWordAtPC : Obligations.FetchIsTheBigEndianWordAtPC := by
  intro s
  refine ⟨rfl, fun a => ?_⟩
  rw [toNat_loadWord, loadByte_mod, loadByte_mod]

end Sys2Proof.Machine
end

-- Encoding: operands placed in an opcode are read back from it (spec 30 R52, R53).
section

namespace Sys2Proof

/-! ## One field of a word -/

/-- Fixed bits that lie in a mask do not show in a field outside the mask. -/
theorem extractLsb'_or_fixed {f m : Word} {lo n : Nat} (hf : f &&& m = f)
    (hm : m.extractLsb' lo n = 0#n) (op : Word) :
    (f ||| op).extractLsb' lo n = op.extractLsb' lo n := by
  have h0 : f.extractLsb' lo n = 0#n := by rw [← hf, BitVec.extractLsb'_and, hm, BitVec.and_zero]
  rw [BitVec.extractLsb'_or, h0, BitVec.zero_or]

/-- A number is read back from the field it was placed at, cut to the field's width. -/
theorem extractLsb'_placeAt_same {v lo n : Nat} (h : lo + n ≤ 16) :
    (placeAt v lo).extractLsb' lo n = BitVec.ofNat n v := by
  apply BitVec.eq_of_getLsbD_eq
  intro i hi
  have hb : lo + i < 16 := by omega
  simp [hi, hb, getLsbD_placeAt, BitVec.getLsbD_ofNat, -BitVec.getLsbD_eq_getElem]

/-- A placed number does not reach a field below it. -/
theorem extractLsb'_placeAt_below {v lo a n : Nat} (h : a + n ≤ lo) :
    (placeAt v lo).extractLsb' a n = 0#n := by
  apply BitVec.eq_of_getLsbD_eq
  intro i hi
  have hb : ¬ lo ≤ a + i := by omega
  simp [hb, getLsbD_placeAt, -BitVec.getLsbD_eq_getElem]

/-- A placed number that ends below a field does not reach it. -/
theorem extractLsb'_placeAt_above {v lo a n : Nat} (h : v < 2 ^ (a - lo)) :
    (placeAt v lo).extractLsb' a n = 0#n := by
  apply BitVec.eq_of_getLsbD_eq
  intro i hi
  have hb : v.testBit (a + i - lo) = false := testBit_of_lt h (by omega)
  simp [hb, getLsbD_placeAt, -BitVec.getLsbD_eq_getElem]

/-! ## The fields of a shape -/

/-- Fixed bits ORed in are not among the operands of their shape. -/
theorem decodeOperands_or_fixed {f : Word} {sh : Shape} (hf : f &&& sh.fixedMask = f) (op : Word) :
    decodeOperands (f ||| op) sh = decodeOperands op sh := by
  cases sh <;>
    simp (disch := decide) only [decodeOperands, fieldX, fieldY, fieldN, fieldKK, fieldNNN,
      extractLsb'_or_fixed hf]

/-- The fields of an encoded operand tuple are the operands: in every shape each number is read
from its own place, and the width of each keeps it out of the other fields (spec 30 R52, R53). -/
theorem decodeOperands_encodeOperands (ops : Operands) (h : ops.wellFormed = true) :
    decodeOperands (encodeOperands ops) ops.shape = ops := by
  cases ops
  all_goals
    simp only [Operands.wellFormed, Bool.and_eq_true, decide_eq_true_eq] at h
    simp (disch := omega) only [decodeOperands, encodeOperands, Operands.shape, fieldX, fieldY,
      fieldN, fieldKK, fieldNNN, BitVec.extractLsb'_or, extractLsb'_placeAt_same,
      extractLsb'_placeAt_below, extractLsb'_placeAt_above, BitVec.zero_or, BitVec.or_zero,
      BitVec.toNat_ofNat, Nat.mod_eq_of_lt]

/-- Settles O4: the fixed bits lie in the mask of the shape, the operands outside it, so neither
hides the other; the classifier sees the fixed bits alone. -/
theorem operandTuplesRoundTrip : Obligations.OperandTuplesRoundTrip := by
  intro i ops h hs
  refine ⟨?_, keyOf_encoded i ops h hs⟩
  have hf : i.fixedBits &&& ops.shape.fixedMask = i.fixedBits := by
    rw [hs, fixedBits_and_fixedMask]
  rw [decodeOperands_or_fixed hf, decodeOperands_encodeOperands ops h]

end Sys2Proof
end

-- The step's two forms without an instruction: an unassigned opcode (spec 40 R65) and the poll of
-- a suspended step (spec 40 R61).
section

namespace Sys2Proof

/-- A key in no row is reported as unassigned (spec 30 R57). -/
theorem decode_of_no_row {op : Word} (h : ∀ r ∈ opcodeTable, r.key ≠ keyOf op) :
    decode op = .error (.unassigned (keyOf op)) := by
  obtain ⟨r, hr, hk, -⟩ | ⟨-, hd⟩ := decode_cases op
  · exact absurd hk.symm (h r hr)
  · exact hd

end Sys2Proof

namespace Sys2Proof.Machine

/-! ## The unassigned opcode (spec 40 R65) -/

/-- Settles O41: the decoder finds no row, so the dispatch leaves the state whose `PC` the step
has advanced to the timer update. -/
theorem unassignedOpcodeIsANoOperation : Obligations.UnassignedOpcodeIsANoOperation := by
  intro s hp hw hkey
  rw [step_of_nil hp, interpreterStep_running hw, execWord_error (decode_of_no_row hkey),
    withTimers_next]

/-! ## The poll (spec 40 R61) -/

/-- With a key pressed the lowest one resolves the wait. -/
theorem pollKeyboard_of_lowest {s : State} {k : Nibble} (hk : s.lowestKey = some k) (x : Nibble) :
    s.pollKeyboard x = (s.writeV x (k.setWidth 8)).setWait .running := by
  simp [State.pollKeyboard, hk]

/-- With no key pressed the poll changes nothing. -/
theorem pollKeyboard_of_none {s : State} (hk : s.lowestKey = none) (x : Nibble) :
    s.pollKeyboard x = s := by
  simp [State.pollKeyboard, hk]

/-- Whether or not it finds a key, the poll writes at most `V[x]` among the registers. -/
theorem readV_pollKeyboard_other (s : State) {x z : Nibble} (h : z ≠ x) :
    (s.pollKeyboard x).readV z = s.readV z := by
  obtain ⟨k, -, hpoll⟩ | ⟨-, hpoll⟩ := pollKeyboard_cases s x
  · rw [hpoll, readV_setWait, readV_writeV_other s h]
  · rw [hpoll]

/-- A suspended step changes `V[x]`, the wait and the timers alone; the anchor moves as in every
timer update. -/
theorem suspended_frame (s : State) (x : Nibble) :
    Frame.Holds { v := fun z => z == x, dt := true, st := true, wait := true }
      { s with anchor3 := s.advanceTimers.anchor3 } (s.pollKeyboard x).advanceTimers where
  v z hz := by
    rw [readV_advanceTimers, readV_pollKeyboard_other s (by simpa using hz)]
    exact readV_congr rfl z
  pc _ := by simp
  i _ := by simp
  sp _ := by simp
  stack k _ := by simp
  dt h := by simp at h
  st h := by simp at h
  rng _ := by simp
  mem a _ := loadByte_congr (by simp) a
  fb _ px py := pixel_congr (by simp) px py
  wait h := by simp at h
  key k := isPressed_congr (by simp) k
  anchor3 := by simp
  nowMs := by simp
  pending := by simp

/-- Settles O42: a suspended step is the poll and then the timer update; the two clauses on the
keys are the two answers of the search for the lowest key. -/
theorem suspendedStepPollsTheKeyboard : Obligations.SuspendedStepPollsTheKeyboard := by
  intro x s hp hw
  refine ⟨(s.pollKeyboard x).advanceTimers, by rw [step_of_nil hp, interpreterStep_awaiting hw],
    fun k hk hlow => ?_, fun hnone => ?_, by simp, by simp, suspended_frame s x⟩
  · have hlowest : s.lowestKey = some k := (lowestKey_eq_some s k).2 ⟨hk, hlow⟩
    simp [pollKeyboard_of_lowest hlowest]
  · have hno : s.lowestKey = none := (lowestKey_eq_none s).2 hnone
    simp [pollKeyboard_of_none hno]

end Sys2Proof.Machine
end

-- Control transfer (spec 41): the row an opcode selects, and where RET, JP, the skips and JP V0
-- leave PC.
section

namespace Sys2Proof.Machine

/-! ## Selection by a row of the table (spec 30 R55) -/

/-- Mask and match of the row at index `n` (counted from 0) select the instruction it builds. -/
theorem selectsAs_row (n : Nat) (hn : n < opcodeTable.length) {i : Word → Instr}
    (hbuild : ∀ op, opcodeTable[n].build op = i op) :
    SelectsAs opcodeTable[n].mask opcodeTable[n].key i := by
  intro op hmatch
  rw [← hbuild op]
  exact decode_of_match (List.getElem_mem hn) hmatch

variable (s : State)

/-! ## The arms of control transfer -/

theorem exec_ret (ig : Nibble) : exec (.ret ig) s = .next s.popPC := rfl

theorem exec_jpAddr (nnn : Addr) : exec (.jpAddr nnn) s = .next (s.setPC (zextAddr nnn)) := rfl

theorem exec_seVxByte (x : Nibble) (kk : Byte) :
    exec (.seVxByte x kk) s = .next (s.skipIf (s.readV x == kk)) := rfl

theorem exec_sneVxByte (x : Nibble) (kk : Byte) :
    exec (.sneVxByte x kk) s = .next (s.skipIf (s.readV x != kk)) := rfl

theorem exec_seVxVy (x y : Nibble) :
    exec (.seVxVy x y) s = .next (s.skipIf (s.readV x == s.readV y)) := rfl

theorem exec_sneVxVy (x y : Nibble) :
    exec (.sneVxVy x y) s = .next (s.skipIf (s.readV x != s.readV y)) := rfl

theorem exec_jpV0Addr (nnn : Addr) :
    exec (.jpV0Addr nnn) s = .next (s.setPC (zextAddr nnn + zextByte (s.readV v0))) := rfl

/-! ## Frames of the shared operations -/

theorem setPC_frame (w : Word) : Frame.Holds { pc := true } s (s.setPC w) := by
  constructor <;> simp

/-- A skip assigns `PC`, taken or not. -/
theorem skipIf_frame (c : Bool) : Frame.Holds { pc := true } s (s.skipIf c) := by
  rw [skipIf_eq]
  exact setPC_frame s _

theorem popPC_frame : Frame.Holds { pc := true, sp := true } s s.popPC := by
  constructor <;> simp

/-! ## Targets as numbers -/

@[simp] theorem toNat_zextAddr (nnn : Addr) : (zextAddr nnn).toNat = nnn.toNat :=
  BitVec.toNat_setWidth_of_le (by decide)

@[simp] theorem toNat_zextByte (b : Byte) : (zextByte b).toNat = b.toNat :=
  BitVec.toNat_setWidth_of_le (by decide)

/-- An address and a byte add without overflow: 0xFFF + 0xFF is below 2^16 (spec 41 R77). -/
theorem toNat_zextAddr_add_zextByte (nnn : Addr) (b : Byte) :
    (zextAddr nnn + zextByte b).toNat = nnn.toNat + b.toNat := by
  have hnnn : nnn.toNat < 4096 := nnn.isLt
  have hb : b.toNat < 256 := b.isLt
  have hlt : (zextAddr nnn).toNat + (zextByte b).toNat < 2 ^ 16 := by
    rw [toNat_zextAddr, toNat_zextByte]; omega
  rw [BitVec.toNat_add_of_lt hlt, toNat_zextAddr, toNat_zextByte]

/-- The target of a skip, modulo 2^16 (spec 41 R73, log entry 5). -/
theorem toNat_skipIf_PC (c : Bool) :
    (s.skipIf c).PC.toNat = if c then (s.PC.toNat + 2) % 65536 else s.PC.toNat := by
  cases c <;> simp

/-! ## Skips on a comparison of two bytes -/

/-- The two equality skips, 3XKK and 5XY0. -/
theorem skip_of_eq {s : State} {i : Instr} {a b : Byte}
    (hexec : exec i s = .next (s.skipIf (a == b))) :
    ∃ t, exec i s = .next t ∧
      t.PC.toNat = (if a = b then (s.PC.toNat + 2) % 65536 else s.PC.toNat) ∧
      Frame.Holds { pc := true } s t := by
  refine ⟨_, hexec, ?_, skipIf_frame s _⟩
  simp only [toNat_skipIf_PC, beq_iff_eq]

/-- The two inequality skips, 4XKK and 9XY0. -/
theorem skip_of_ne {s : State} {i : Instr} {a b : Byte}
    (hexec : exec i s = .next (s.skipIf (a != b))) :
    ∃ t, exec i s = .next t ∧
      t.PC.toNat = (if a = b then s.PC.toNat else (s.PC.toNat + 2) % 65536) ∧
      Frame.Holds { pc := true } s t := by
  refine ⟨_, hexec, ?_, skipIf_frame s _⟩
  simp only [toNat_skipIf_PC, bne_iff_ne, ite_not]

/-! ## The statements -/

/-- Settles O7: the pop has two cases, an entry to pop and the empty stack. -/
theorem returnPopsIntoPC : Obligations.ReturnPopsIntoPC := by
  refine ⟨selectsAs_row 1 (by decide) fun op => congrArg Instr.ret (fieldX_eq_num op),
    fun ig s => ⟨s.popPC, exec_ret s ig, fun hpos => ?_, fun hempty => ?_, popPC_frame s⟩⟩
  · rw [popPC_of_pos s hpos]
    exact ⟨rfl, rfl⟩
  · rw [popPC_of_empty s hempty]
    exact ⟨rfl, rfl⟩

/-- Settles O8: `PC` is set to the zero-extended address field. -/
theorem jumpSetsPC : Obligations.JumpSetsPC :=
  ⟨selectsAs_row 2 (by decide) fun op => congrArg Instr.jpAddr (fieldNNN_eq_num op),
    fun nnn s => ⟨_, exec_jpAddr s nnn, toNat_zextAddr nnn, setPC_frame s _⟩⟩

/-- Settles O10: both are skips on comparing `V[x]` with the immediate. -/
theorem skipComparesRegisterWithByte : Obligations.SkipComparesRegisterWithByte :=
  ⟨selectsAs_row 4 (by decide) fun op =>
      congrArg₂ Instr.seVxByte (fieldX_eq_num op) (fieldKK_eq_num op),
    selectsAs_row 5 (by decide) fun op =>
      congrArg₂ Instr.sneVxByte (fieldX_eq_num op) (fieldKK_eq_num op),
    fun x kk s => ⟨skip_of_eq (exec_seVxByte s x kk), skip_of_ne (exec_sneVxByte s x kk)⟩⟩

/-- Settles O11: both are skips on comparing `V[x]` with `V[y]`. -/
theorem skipComparesTwoRegisters : Obligations.SkipComparesTwoRegisters :=
  ⟨selectsAs_row 6 (by decide) fun op =>
      congrArg₂ Instr.seVxVy (fieldX_eq_num op) (fieldY_eq_num op),
    selectsAs_row 18 (by decide) fun op =>
      congrArg₂ Instr.sneVxVy (fieldX_eq_num op) (fieldY_eq_num op),
    fun x y s => ⟨skip_of_eq (exec_seVxVy s x y), skip_of_ne (exec_sneVxVy s x y)⟩⟩

/-- Settles O12: `PC` is set to the 16-bit sum, which is the exact one. -/
theorem jumpV0AddsRegisterZero : Obligations.JumpV0AddsRegisterZero :=
  ⟨selectsAs_row 20 (by decide) fun op => congrArg Instr.jpV0Addr (fieldNNN_eq_num op),
    fun nnn s => ⟨_, exec_jpV0Addr s nnn, toNat_zextAddr_add_zextByte nnn _, setPC_frame s _⟩⟩

end Sys2Proof.Machine
end

-- Load, arithmetic and copy that write one register and no flag (spec 42 R80 to R82).
section

namespace Sys2Proof.Machine

variable (s : State)

/-! ## The arms -/

theorem exec_ldVxByte (x : Nibble) (kk : Byte) :
    exec (.ldVxByte x kk) s = .next (s.writeV x kk) := rfl

theorem exec_addVxByte (x : Nibble) (kk : Byte) :
    exec (.addVxByte x kk) s = .next (s.writeV x (s.readV x + kk)) := rfl

theorem exec_ldVxVy (x y : Nibble) :
    exec (.ldVxVy x y) s = .next (s.writeV x (s.readV y)) := rfl

/-! ## The frame of a register write -/

theorem writeV_frame (x : Nibble) (b : Byte) : (Frame.reg x).Holds s (s.writeV x b) := by
  constructor
  case v =>
    intro z hz
    have hne : z ≠ x := beq_eq_false_iff_ne.mp hz
    exact readV_writeV_other s hne b
  all_goals simp

/-! ## The statements -/

/-- Settles O14: one register write of the immediate. -/
theorem loadByteSetsRegister : Obligations.LoadByteSetsRegister :=
  ⟨selectsAs_row 7 (by decide) fun op =>
      congrArg₂ Instr.ldVxByte (fieldX_eq_num op) (fieldKK_eq_num op),
    fun x kk s => ⟨_, exec_ldVxByte s x kk, readV_writeV_same s x kk, writeV_frame s x _⟩⟩

/-- Settles O15: one register write of the 8-bit sum, so VF changes only as the destination. -/
theorem addByteWrapsWithoutFlag : Obligations.AddByteWrapsWithoutFlag := by
  refine ⟨selectsAs_row 8 (by decide) fun op =>
      congrArg₂ Instr.addVxByte (fieldX_eq_num op) (fieldKK_eq_num op),
    fun x kk s => ⟨_, exec_addVxByte s x kk, ?_, writeV_frame s x _⟩⟩
  rw [readV_writeV_same]
  exact BitVec.toNat_add (s.readV x) kk

/-- Settles O16: one register write of the old `V[y]`, also where `y` is `x`. -/
theorem copySetsRegister : Obligations.CopySetsRegister :=
  ⟨selectsAs_row 9 (by decide) fun op =>
      congrArg₂ Instr.ldVxVy (fieldX_eq_num op) (fieldY_eq_num op),
    fun x y s => ⟨_, exec_ldVxVy s x y, readV_writeV_same s x _, writeV_frame s x _⟩⟩

end Sys2Proof.Machine
end

-- Index register and the decimal digits (spec 43 R95, R97, R98): where ANNN and FX29 point `I`, and
-- FX33 as one store of a three-byte slice.
section

namespace Sys2Proof.Machine

/-- The slice FX33 stores: the digits of a register, hundreds first (spec 43 R98). -/
def bcdDigits (v : Byte) : List Byte := [hundreds v, tens v, ones v]

@[simp] theorem length_bcdDigits (v : Byte) : (bcdDigits v).length = 3 := rfl

variable (s : State)

/-! ## The arms -/

theorem exec_ldIAddr (nnn : Addr) : exec (.ldIAddr nnn) s = .next (s.setI (zextAddr nnn)) := rfl

theorem exec_ldFVx (x : Nibble) :
    exec (.ldFVx x) s = .next (s.setI (glyphAddress (s.readV x))) := rfl

/-- The three byte stores of FX33 are one bulk store from `I` on, so the laws of bulk stores hold
of it. -/
theorem exec_ldBVx (x : Nibble) :
    exec (.ldBVx x) s = .next (s.storeBytes (s.indexed 0) (bcdDigits (s.readV x))) := rfl

/-! ## Frames of the shared operations -/

theorem setI_frame (w : Word) : Frame.Holds { i := true } s (s.setI w) := by
  constructor <;> simp

/-- A bulk store reaches the wrapped addresses of its slice and nothing else (spec 20 R36). -/
theorem storeBytes_frame (a : Nat) (bs : List Byte) :
    Frame.Holds { mem := fun c => (List.range bs.length).any (fun i => c == Memory.wrap (a + i)) }
      s (s.storeBytes a bs) := by
  constructor
  case mem =>
    intro c hc
    have houtside : ∀ i < bs.length, Memory.wrap c ≠ Memory.wrap (a + i) := by simpa using hc
    exact read_writeBytes_other s.mem a bs c houtside
  case v => exact fun z _ => readV_congr (storeBytes_V s a bs) z
  case fb => exact fun _ px py => pixel_congr (storeBytes_fb s a bs) px py
  case key => exact fun k => isPressed_congr (storeBytes_key s a bs) k
  all_goals simp

/-- The bytes of a bulk store of at most 4096 are read back, each from its own wrapped address. -/
theorem loadByte_storeBytes (a : Nat) {bs : List Byte} (hlen : bs.length ≤ 4096) (i : Nat)
    (hi : i < bs.length) : (s.storeBytes a bs).loadByte (a + i) = bs[i] :=
  read_writeBytes s.mem a bs hlen i hi

/-- The slice of FX33 is read back digit by digit. -/
theorem loadByte_storeBcd (v : Byte) (i : Nat) (hi : i < 3) :
    (s.storeBytes (s.indexed 0) (bcdDigits v)).loadByte (s.indexed i) = (bcdDigits v)[i] :=
  loadByte_storeBytes s (s.indexed 0) (bs := bcdDigits v) (by simp) i hi

/-- The addresses the slice of FX33 reaches are the block of three at `I`. -/
theorem storeBcd_frame (v : Byte) :
    Frame.Holds { mem := s.block 3 } s (s.storeBytes (s.indexed 0) (bcdDigits v)) :=
  storeBytes_frame s (s.indexed 0) (bcdDigits v)

/-! ## Addresses and digits as numbers -/

/-- The glyph addresses end at 5 * 15, far below 2^16 (spec 43 R97). -/
theorem toNat_glyphAddress (v : Byte) : (glyphAddress v).toNat = 5 * (v.toNat % 16) := by
  have hlt : 5 * (v.toNat % 16) < 2 ^ 16 := by omega
  rw [glyphAddress, BitVec.toNat_ofNat, Nat.mod_eq_of_lt hlt]

theorem toNat_hundreds (v : Byte) : (hundreds v).toNat = v.toNat / 100 := by
  have hlt : v.toNat / 100 < 2 ^ 8 := by have hv : v.toNat < 256 := v.isLt; omega
  rw [hundreds, BitVec.toNat_ofNat, Nat.mod_eq_of_lt hlt]

theorem toNat_tens (v : Byte) : (tens v).toNat = v.toNat / 10 % 10 := by
  have hlt : v.toNat / 10 % 10 < 2 ^ 8 := by omega
  rw [tens, BitVec.toNat_ofNat, Nat.mod_eq_of_lt hlt]

theorem toNat_ones (v : Byte) : (ones v).toNat = v.toNat % 10 := by
  have hlt : v.toNat % 10 < 2 ^ 8 := by omega
  rw [ones, BitVec.toNat_ofNat, Nat.mod_eq_of_lt hlt]

/-! ## The statements -/

/-- Settles O23: both assign `I`, to the zero-extended address field and to the glyph's address. -/
theorem indexLoadsSetI : Obligations.IndexLoadsSetI :=
  ⟨selectsAs_row 19 (by decide) fun op => congrArg Instr.ldIAddr (fieldNNN_eq_num op),
    selectsAs_row 30 (by decide) fun op => congrArg Instr.ldFVx (fieldX_eq_num op),
    fun nnn s => ⟨_, exec_ldIAddr s nnn, toNat_zextAddr nnn, setI_frame s _⟩,
    fun x s => ⟨_, exec_ldFVx s x, toNat_glyphAddress _, setI_frame s _⟩⟩

/-- Settles O25: the three digits are one slice stored from `I` on; it is read back byte by byte,
and the addresses it reaches are the three of the block at `I`. -/
theorem bcdStoresThreeDigits : Obligations.BcdStoresThreeDigits := by
  refine ⟨selectsAs_row 31 (by decide) fun op => congrArg Instr.ldBVx (fieldX_eq_num op),
    fun x s => ⟨_, exec_ldBVx s x, ?_, ?_, ?_, storeBcd_frame s _⟩⟩
  · rw [loadByte_storeBcd s _ 0 (by decide)]
    exact toNat_hundreds _
  · rw [loadByte_storeBcd s _ 1 (by decide)]
    exact toNat_tens _
  · rw [loadByte_storeBcd s _ 2 (by decide)]
    exact toNat_ones _

end Sys2Proof.Machine
end

-- Clearing the screen (spec 44 R105): 00E0 assigns the framebuffer and nothing else.
section

namespace Sys2Proof.Machine

variable (s : State)

theorem exec_cls (ig : Nibble) : exec (.cls ig) s = .next (s.setFB Framebuffer.blank) := rfl

/-! ## The framebuffer write -/

theorem setFB_frame (fb : Framebuffer) : Frame.Holds { fb := true } s (s.setFB fb) := by
  constructor <;> simp

/-! ## The statement -/

/-- Settles O30: one assignment of the blank framebuffer, whose pixels are all 0. -/
theorem clearScreenClearsEveryPixel : Obligations.ClearScreenClearsEveryPixel := by
  refine ⟨selectsAs_row 0 (by decide) fun op => congrArg Instr.cls (fieldX_eq_num op),
    fun ig s => ⟨_, exec_cls s ig, fun px py => ?_, setFB_frame s _⟩⟩
  rw [pixel_setFB, pixel_blank]

end Sys2Proof.Machine
end

-- Keyboard and timer instructions (spec 45 R110, R112 to R115): the key skip, the timer reads and
-- writes with the step that runs them, and the two ends of the key wait.
section

namespace Sys2Proof.Machine

variable (s : State)

/-! ## The arms -/

theorem exec_skpVx (x : Nibble) :
    exec (.skpVx x) s = .next (s.skipIf (s.isPressed (keyIndex (s.readV x)))) := rfl

theorem exec_ldVxDt (x : Nibble) : exec (.ldVxDt x) s = .next (s.writeV x s.DT) := rfl

theorem exec_ldVxK (x : Nibble) : exec (.ldVxK x) s = .next (s.setWait (.awaitingKey x)) := rfl

theorem exec_ldDtVx (x : Nibble) : exec (.ldDtVx x) s = .next (s.setDT (s.readV x)) := rfl

theorem exec_ldStVx (x : Nibble) : exec (.ldStVx x) s = .next (s.setST (s.readV x)) := rfl

/-! ## Frames of the timer and wait writes -/

theorem setDT_frame (b : Byte) : Frame.Holds { dt := true } s (s.setDT b) := by
  constructor <;> simp

theorem setST_frame (b : Byte) : Frame.Holds { st := true } s (s.setST b) := by
  constructor <;> simp

theorem setWait_frame (w : Wait) : Frame.Holds { wait := true } s (s.setWait w) := by
  constructor <;> simp

/-! ## The key that a register names (spec 45 R110) -/

/-- The low four bits of a byte are its value modulo 16. -/
theorem keyIndex_eq_ofNat (v : Byte) : keyIndex v = BitVec.ofNat 4 v.toNat := by
  apply BitVec.eq_of_toNat_eq
  simp [keyIndex]

/-! ## The step around an instruction (spec 40 R60 to R66) -/

/-- With nothing pending and no wait open, a step is the decoded instruction on the state whose `PC`
has been advanced, and the timer update after it. -/
theorem step_of_exec {s t : State} {i : Instr} (hp : s.pending = []) (hw : s.wait = .running)
    (hd : decode s.fetch = .ok i) (hexec : exec i s.advancePC = .next t) :
    step s = .next t.advanceTimers := by
  rw [step_of_nil hp, interpreterStep_running hw, execWord_ok hd, hexec, withTimers_next]

/-! ## The statements -/

/-- Settles O33: a skip on the level of the key that the low four bits of `V[x]` name. -/
theorem skipIfKeyPressed : Obligations.SkipIfKeyPressed := by
  refine ⟨selectsAs_row 23 (by decide) fun op => congrArg Instr.skpVx (fieldX_eq_num op),
    fun x s => ⟨_, exec_skpVx s x, ?_, skipIf_frame s _⟩⟩
  rw [toNat_skipIf_PC, keyIndex_eq_ofNat]

/-- Settles O35: one register write of `DT`; in the step, the timer update after it leaves the
registers alone. -/
theorem readDelayTimer : Obligations.ReadDelayTimer := by
  refine ⟨selectsAs_row 25 (by decide) fun op => congrArg Instr.ldVxDt (fieldX_eq_num op),
    fun x s => ⟨_, exec_ldVxDt s x, readV_writeV_same s x _, writeV_frame s x _⟩,
    fun x s hp hw hd => ⟨_, step_of_exec hp hw hd (exec_ldVxDt _ x), ?_⟩⟩
  rw [readV_advanceTimers, readV_writeV_same, advancePC_DT]

/-- Settles O36: one timer write each; the update at the end of the step counts the written value
down, by ticks that depend on the time and the anchor alone. -/
theorem writeTimers : Obligations.WriteTimers := by
  refine ⟨selectsAs_row 27 (by decide) fun op => congrArg Instr.ldDtVx (fieldX_eq_num op),
    selectsAs_row 28 (by decide) fun op => congrArg Instr.ldStVx (fieldX_eq_num op),
    fun x s => ⟨⟨_, exec_ldDtVx s x, setDT_DT s _, setDT_frame s _⟩,
      ⟨_, exec_ldStVx s x, setST_ST s _, setST_frame s _⟩⟩,
    fun x s hp hw => ⟨fun hd => ?_, fun hd => ?_⟩⟩
  · exact ⟨_, step_of_exec hp hw hd (exec_ldDtVx _ x), by simp, by simp⟩
  · exact ⟨_, step_of_exec hp hw hd (exec_ldStVx _ x), by simp, by simp⟩

/-- Settles O37: FX0A writes the wait alone. A step in the wait polls the keyboard and then updates
the timers: with a key pressed this is the suspended step of O42, and with none the poll leaves the
state alone. -/
theorem keyWaitEntersAndResolves : Obligations.KeyWaitEntersAndResolves := by
  refine ⟨selectsAs_row 26 (by decide) fun op => congrArg Instr.ldVxK (fieldX_eq_num op),
    fun x s => ⟨_, exec_ldVxK s x, setWait_wait s _, setWait_frame s _⟩,
    fun x k s hp hw hk hlow => ?_, fun x s hp hw hnone => ?_⟩
  · obtain ⟨t, hstep, hresolve, -, hDT, hST, hframe⟩ := suspendedStepPollsTheKeyboard x s hp hw
    obtain ⟨hkey, hrun⟩ := hresolve k hk hlow
    have hcode : (t.readV x).toNat = k.toNat := by
      rw [hkey, BitVec.toNat_setWidth_of_le (by decide)]
    exact ⟨t, hstep, hcode, hrun, hframe.pc rfl, hDT, hST⟩
  · have hno : s.lowestKey = none := (lowestKey_eq_none s).2 hnone
    rw [step_of_nil hp, interpreterStep_awaiting hw, pollKeyboard_of_none hno]

end Sys2Proof.Machine
end

-- Encoding: decoder and encoder undo each other, and mask and match, the classifier and the list of
-- the unassigned opcodes say the same (spec 30 R53 to R57).
section

namespace Sys2Proof

/-! ## Rows and instructions -/

/-- Every instruction has its row in the table: the key is the instruction's fixed bits, and from
any opcode whose fields are the instruction's operands the row builds the instruction. -/
theorem row_of_instr (i : Instr) :
    ∃ r ∈ opcodeTable, r.key = i.fixedBits ∧
      ∀ op, decodeOperands op i.operands.shape = i.operands → r.build op = i := by
  have hrow : ∃ r, opcodeTable.find? (fun r => r.key == i.fixedBits) = some r ∧
      ∀ op, decodeOperands op i.operands.shape = i.operands → r.build op = i := by
    cases i <;>
      exact ⟨_, rfl, fun op h => by simpa [decodeOperands, Instr.operands, Operands.shape,
        BitVec.toNat_inj] using h⟩
  obtain ⟨r, hfind, hbuild⟩ := hrow
  exact ⟨r, List.mem_of_find?_eq_some hfind, by simpa using List.find?_some hfind, hbuild⟩

/-- What a row builds from an opcode: its fixed bits are the row's key, its operands the fields of
the opcode that the row's shape names, and the row's mask covers all other bits. -/
theorem build_of_row (op : Word) : ∀ r ∈ opcodeTable,
    (r.build op).fixedBits = r.key ∧ (r.build op).operands = decodeOperands op r.shape ∧
      r.mask = r.shape.fixedMask := by
  simp [opcodeTable, rowsControl, rowsByte, rowsAlu, rowsIndex, rowsSystem, Instr.fixedBits,
    Instr.operands, decodeOperands, Shape.fixedMask]

/-- A field of an opcode put back at its own place is the opcode cut to the field's bits. -/
theorem getLsbD_placeAt_field (op : Word) (lo n i : Nat) :
    (placeAt (op.extractLsb' lo n).toNat lo).getLsbD i =
      (decide (lo ≤ i) && decide (i < lo + n) && op.getLsbD i) := by
  rw [getLsbD_placeAt, BitVec.testBit_toNat, BitVec.getLsbD_extractLsb']
  by_cases hlo : lo ≤ i
  · have hsum : lo + (i - lo) = i := by omega
    have hlt : i - lo < n ↔ i < lo + n := by omega
    by_cases hi : i < 16
    · simp [hlo, hi, hsum, hlt, -BitVec.getLsbD_eq_getElem]
    · simp [hi, BitVec.getLsbD_of_ge op i (by omega)]
  · simp [hlo]

/-- The fields of an opcode put back in their places are its operand bits. -/
theorem encodeOperands_decodeOperands (op : Word) (sh : Shape) :
    encodeOperands (decodeOperands op sh) = op &&& ~~~ sh.fixedMask := by
  apply BitVec.eq_of_getLsbD_eq
  intro i hi
  cases sh
  all_goals
    simp only [encodeOperands, decodeOperands, Shape.fixedMask, fieldX, fieldY, fieldN, fieldKK,
      fieldNNN, BitVec.getLsbD_or, BitVec.getLsbD_and, getLsbD_placeAt_field]
    interval_cases i <;> simp

/-! ## Masks as arithmetic (spec 30 R54) -/

/-- The mask of the top nibble and the `n` lowest bits keeps these and no other. -/
theorem toNat_and_topAndLow (op : Word) {n : Nat} (hn : n ≤ 12) :
    (op &&& (0xF000#16 ||| BitVec.ofNat 16 (2 ^ n - 1))).toNat =
      2 ^ 12 * (op.toNat / 2 ^ 12) + op.toNat % 2 ^ n := by
  have htop : ∀ i < 16, (0xF000#16).getLsbD i = decide (12 ≤ i) := by decide
  have hlow : op.toNat % 2 ^ n < 2 ^ 12 :=
    (Nat.mod_lt _ (by positivity)).trans_le (Nat.pow_le_pow_right (by decide) hn)
  apply Nat.eq_of_testBit_eq
  intro i
  rw [Nat.testBit_two_pow_mul_add _ hlow]
  by_cases hi : i < 16
  · rw [← BitVec.getLsbD, BitVec.getLsbD_and, BitVec.getLsbD_or, htop i hi, BitVec.getLsbD_ofNat,
      Nat.testBit_two_pow_sub_one]
    by_cases h12 : i < 12
    · simp [hi, h12, not_le.2 h12, Nat.testBit_mod_two_pow, BitVec.getLsbD, Bool.and_comm,
        -BitVec.getLsbD_eq_getElem]
    · have hsum : i - 12 + 12 = i := by omega
      rw [Nat.testBit_div_two_pow, hsum]
      simp [h12, not_lt.1 h12, BitVec.getLsbD, -BitVec.getLsbD_eq_getElem]
  · have hge : op.toNat / 2 ^ 12 < 2 ^ (i - 12) := by
      have hpow : 2 ^ 4 ≤ 2 ^ (i - 12) := Nat.pow_le_pow_right (by decide) (by omega)
      have := op.isLt
      omega
    rw [if_neg (by omega), Nat.testBit_lt_two_pow hge]
    exact BitVec.getLsbD_of_ge _ i (by omega)

/-- The part of the key below the top nibble: the low byte, the low nibble or nothing. -/
def keyLow (op : Word) : Nat :=
  if op.toNat / 4096 ∈ [0x0, 0xE, 0xF] then op.toNat % 256
  else if op.toNat / 4096 ∈ [0x5, 0x8, 0x9] then op.toNat % 16 else 0

theorem keyLow_lt (op : Word) : keyLow op < 4096 := by
  unfold keyLow; split_ifs <;> omega

/-- The key as arithmetic (spec 30 R54). -/
theorem toNat_keyOf (op : Word) : (keyOf op).toNat = 4096 * (op.toNat / 4096) + keyLow op := by
  have htop : (topNibble op).toNat = op.toNat / 4096 := by
    have := op.isLt
    simp [topNibble, Nat.shiftRight_eq_div_pow]; omega
  have hbyte : topNibble op ∈ [0x0#4, 0xE#4, 0xF#4] ↔ op.toNat / 4096 ∈ [0x0, 0xE, 0xF] := by
    simp [← htop, ← BitVec.toNat_inj]
  have hnibble : topNibble op ∈ [0x5#4, 0x8#4, 0x9#4] ↔ op.toNat / 4096 ∈ [0x5, 0x8, 0x9] := by
    simp [← htop, ← BitVec.toNat_inj]
  simp only [keyOf_eq_mask, maskFor, keyLow, hbyte, hnibble]
  split
  · exact toNat_and_topAndLow op (n := 8) (by decide)
  · split
    · exact toNat_and_topAndLow op (n := 4) (by decide)
    · simpa [Nat.mod_one] using toNat_and_topAndLow op (n := 0) (by decide)

/-- An opcode is unassigned exactly when no row of its top nibble has its low part (spec 30 R57). -/
theorem decode_error_iff (op : Word) : (∃ e, decode op = .error e) ↔
    ∀ r ∈ opcodeTable, r.key.toNat / 4096 = op.toNat / 4096 →
      r.key.toNat % 4096 ≠ keyLow op := by
  have hkey (r : Row) : r.key = keyOf op ↔
      r.key.toNat / 4096 = op.toNat / 4096 ∧ r.key.toNat % 4096 = keyLow op := by
    have := keyLow_lt op
    rw [← BitVec.toNat_inj, toNat_keyOf]
    omega
  constructor
  · rintro ⟨e, herror⟩ r hr htop hlow
    obtain ⟨q, -, -, hok⟩ | ⟨hnone, -⟩ := decode_cases op
    · simp [herror] at hok
    · exact hnone r hr ((hkey r).2 ⟨htop, hlow⟩)
  · intro h
    refine ⟨_, decode_of_no_row fun r hr he => ?_⟩
    obtain ⟨htop, hlow⟩ := (hkey r).1 he
    exact h r hr htop hlow

/-! ## The statements -/

/-- Settles O1: twelve closed decodings, evaluated. -/
theorem sampleWordsDecode : Obligations.SampleWordsDecode := by
  unfold Obligations.SampleWordsDecode
  decide

/-- Settles O2: the classifier sees the row's key in the encoding, the fields are read back as they
were placed, and the bytes in memory order make up the same word. -/
theorem decodeOfEncodeIsTheInstruction : Obligations.DecodeOfEncodeIsTheInstruction := by
  intro i
  have hdecode : decode (encode i) = .ok i := by
    obtain ⟨r, hr, hkey, hbuild⟩ := row_of_instr i
    obtain ⟨hfields, -⟩ := operandTuplesRoundTrip i i.operands (wellFormed_instr i) rfl
    rw [decode_of_key hr (by rw [keyOf_encode, hkey]), hbuild (encode i) hfields]
  exact ⟨hdecode, decodeBytes_encodeBytes hdecode⟩

/-- Settles O3: the row's key is the opcode's fixed bits and the operands are its other bits, so
together they are the opcode. -/
theorem encodeOfDecodeIsTheOpcode : Obligations.EncodeOfDecodeIsTheOpcode := by
  intro op i hdecode
  obtain ⟨r, hr, hkey, hbuilt⟩ | ⟨-, herror⟩ := decode_cases op
  · obtain ⟨hfixed, hoperands, hmask⟩ := build_of_row op r hr
    obtain rfl : r.build op = i := Except.ok.inj (hbuilt.symm.trans hdecode)
    have hmatch : op &&& r.shape.fixedMask = r.key := by
      rw [← hmask]; exact (match_iff_key op hr).2 hkey
    rw [encode, hfixed, hoperands, encodeOperands_decodeOperands, ← hmatch,
      ← BitVec.and_or_distrib_left, BitVec.or_not_self, BitVec.and_allOnes]
  · simp [herror] at hdecode

/-- Settles O5: mask and match select the row of the classifier's key, and the decoder answers from
that row alone. -/
theorem maskAndMatchSelectTheDecodedRow : Obligations.MaskAndMatchSelectTheDecodedRow := by
  refine ⟨fun op r hr => match_iff_key op hr, fun op r hr => decode_of_match hr,
    fun op i hdecode => ?_⟩
  obtain ⟨r, hr, hkey, -⟩ | ⟨-, herror⟩ := decode_cases op
  · exact ⟨r, hr, (match_iff_key op hr).2 hkey⟩
  · simp [herror] at hdecode

/-- Settles O6: for each of the 16 top nibbles, compare the low part of the key with those of the
rows that have this top nibble. -/
theorem unassignedOpcodesAreExactlyThese : Obligations.UnassignedOpcodesAreExactlyThese := by
  intro op
  have ht : op.toNat / 4096 < 16 := by have := op.isLt; omega
  simp only [decode_error_iff, keyLow, opcodeTable, rowsControl, rowsByte, rowsAlu, rowsIndex,
    rowsSystem, List.forall_mem_append, List.forall_mem_cons, BitVec.toNat_ofNat]
  generalize op.toNat / 4096 = t at *
  interval_cases t <;> simp <;> omega

end Sys2Proof
end

-- What an instruction can write (spec 10 sections 2 and 3): each of the 34 arms is a composition of
-- the shared operations, and the laws of these say which part of the state each leaves alone.
section

namespace Sys2Proof.Machine

/-! ## Registers (spec 10 R10, R11) -/

/-- A register changes only as the destination, and VF also where it is written as a flag. -/
theorem exec_readV {i : Instr} {s t : State} (h : exec i s = .next t) {z : Nibble}
    (hdest : i.destination z = false) (hflag : z = vf → i.writesFlag = false) :
    t.readV z = s.readV z := by
  cases i
  case ldVxMemI x =>
    obtain rfl := Host.Outcome.next.inj h
    have hz : ¬ z.toNat < x.toNat + 1 := by simpa [Instr.destination, Nat.lt_succ_iff] using hdest
    rw [readV_setI, readV_loadV s _ _ (by omega), if_neg hz]
  all_goals
    obtain rfl := Host.Outcome.next.inj h
    simp_all [Instr.destination, Instr.writesFlag, readV_writeV, readV_writeFlagThenV]

theorem flag_eq_zero_or_one (b : Bool) : flag b = 0#8 ∨ flag b = 1#8 := by
  cases b <;> simp [flag]

/-- Written as a flag, and not then overwritten as the destination, VF ends 0 or 1. -/
theorem exec_readV_flag {i : Instr} {s t : State} (h : exec i s = .next t)
    (hflag : i.writesFlag = true) (hdest : i.destination vf = false) :
    ∃ b, t.readV vf = flag b := by
  cases i
  case drwVxVyN x y n =>
    obtain rfl := Host.Outcome.next.inj h
    exact ⟨_, readV_writeV_same _ vf _⟩
  case addVxVy x y | subVxVy x y | shrVxVy x y | subnVxVy x y | shlVxVy x y =>
    obtain rfl := Host.Outcome.next.inj h
    have hne : vf ≠ x := by simpa [Instr.destination] using hdest
    exact ⟨_, by rw [readV_writeFlagThenV, if_neg hne, if_pos rfl]⟩
  all_goals simp [Instr.writesFlag] at hflag

/-! ## The other parts of the state -/

/-- The host's side of the state: no instruction writes the latch, the anchor, the time or the
pending transactions. -/
theorem exec_host {i : Instr} {s t : State} (h : exec i s = .next t) :
    t.key = s.key ∧ t.anchor3 = s.anchor3 ∧ t.nowMs = s.nowMs ∧ t.pending = s.pending := by
  cases i
  all_goals
    obtain rfl := Host.Outcome.next.inj h
    simp

theorem exec_I {i : Instr} {s t : State} (h : exec i s = .next t) (hi : i.writesIndex = false) :
    t.I = s.I := by
  cases i
  case ldIAddr | addIVx | ldFVx | ldMemIVx | ldVxMemI => simp [Instr.writesIndex] at hi
  all_goals
    obtain rfl := Host.Outcome.next.inj h
    simp

theorem exec_stack {i : Instr} {s t : State} (h : exec i s = .next t)
    (hi : i.movesStack = false) : t.SP = s.SP ∧ t.stack = s.stack := by
  cases i
  case ret | callAddr => simp [Instr.movesStack] at hi
  all_goals
    obtain rfl := Host.Outcome.next.inj h
    simp

theorem exec_mem {i : Instr} {s t : State} (h : exec i s = .next t)
    (hi : i.storesMemory = false) : t.mem = s.mem := by
  cases i
  case ldBVx | ldMemIVx => simp [Instr.storesMemory] at hi
  all_goals
    obtain rfl := Host.Outcome.next.inj h
    simp

theorem exec_fb {i : Instr} {s t : State} (h : exec i s = .next t)
    (hi : i.writesPixels = false) : t.fb = s.fb := by
  cases i
  case cls | drwVxVyN => simp [Instr.writesPixels] at hi
  all_goals
    obtain rfl := Host.Outcome.next.inj h
    simp

theorem exec_PC {i : Instr} {s t : State} (h : exec i s = .next t)
    (hi : i.controlsPC = false) : t.PC = s.PC := by
  cases i
  case ret | jpAddr | callAddr | jpV0Addr | seVxByte | sneVxByte | seVxVy | sneVxVy | skpVx |
      sknpVx =>
    simp [Instr.controlsPC] at hi
  all_goals
    obtain rfl := Host.Outcome.next.inj h
    simp

theorem exec_rng {i : Instr} {s t : State} (h : exec i s = .next t)
    (hi : ∀ x kk, i ≠ .rndVxByte x kk) : t.rng = s.rng := by
  cases i
  case rndVxByte x kk => exact absurd rfl (hi x kk)
  all_goals
    obtain rfl := Host.Outcome.next.inj h
    simp

theorem exec_DT {i : Instr} {s t : State} (h : exec i s = .next t) (hi : ∀ x, i ≠ .ldDtVx x) :
    t.DT = s.DT := by
  cases i
  case ldDtVx x => exact absurd rfl (hi x)
  all_goals
    obtain rfl := Host.Outcome.next.inj h
    simp

theorem exec_ST {i : Instr} {s t : State} (h : exec i s = .next t) (hi : ∀ x, i ≠ .ldStVx x) :
    t.ST = s.ST := by
  cases i
  case ldStVx x => exact absurd rfl (hi x)
  all_goals
    obtain rfl := Host.Outcome.next.inj h
    simp

theorem exec_wait {i : Instr} {s t : State} (h : exec i s = .next t) (hi : ∀ x, i ≠ .ldVxK x) :
    t.wait = s.wait := by
  cases i
  case ldVxK x => exact absurd rfl (hi x)
  all_goals
    obtain rfl := Host.Outcome.next.inj h
    simp

/-! ## The statements -/

/-- Settles O22: the six flag writers leave the value of a condition in VF; every other register
is left to the destination. -/
theorem onlySixInstructionsWriteTheFlag : Obligations.OnlySixInstructionsWriteTheFlag := by
  refine fun i s t h => ⟨fun hflag hdest => ?_, fun z hdest hflag => exec_readV h hdest hflag⟩
  obtain ⟨b, hb⟩ := exec_readV_flag h hflag hdest
  change t.readV vf = _ ∨ t.readV vf = _
  rw [hb]
  exact flag_eq_zero_or_one b

/-- Settles O45: part by part, as stated above. -/
theorem instructionsWriteOnlyTheirOwnParts : Obligations.InstructionsWriteOnlyTheirOwnParts := by
  intro i s t h
  obtain ⟨hkey, hanchor, hnow, hpending⟩ := exec_host h
  exact ⟨hkey, hanchor, hnow, hpending, fun z hdest hflag => exec_readV h hdest hflag, exec_I h,
    exec_stack h, exec_mem h, exec_fb h, exec_PC h, exec_rng h, exec_DT h, exec_ST h, exec_wait h⟩

end Sys2Proof.Machine
end

-- The step as a body and the timer update after it (spec 40 R60 to R66): what the body keeps, that
-- every event keeps the invariant, and that time, anchor and pending list do not act on the body.
section

namespace Sys2Proof.Machine

/-! ## The body of a step -/

/-- A step before its timer update: the poll of a suspended step, or the dispatch of the opcode
fetched (spec 40 R61 to R65). -/
def stepBody (s : State) : Host.Outcome State Fault Refusal :=
  match s.wait with
  | .awaitingKey x => .next (s.pollKeyboard x)
  | .running => execWord s.fetch s.advancePC

theorem stepBody_awaiting {s : State} {x : Nibble} (h : s.wait = .awaitingKey x) :
    stepBody s = .next (s.pollKeyboard x) := by
  simp [stepBody, h]

theorem stepBody_running {s : State} (h : s.wait = .running) :
    stepBody s = execWord s.fetch s.advancePC := by
  simp [stepBody, h]

theorem interpreterStep_eq_withTimers (s : State) :
    interpreterStep s = withTimers (stepBody s) := by
  cases hw : s.wait with
  | awaitingKey x => rw [interpreterStep_awaiting hw, stepBody_awaiting hw, withTimers_next]
  | running => rw [interpreterStep_running hw, stepBody_running hw]

/-- A step of the interpreter is its body and then the timer update. -/
theorem interpreterStep_eq_next {s t : State} :
    interpreterStep s = .next t ↔ ∃ u, stepBody s = .next u ∧ t = u.advanceTimers := by
  rw [interpreterStep_eq_withTimers, withTimers_eq_next]

/-- Everything a body can do: the poll, an unassigned opcode, or an instruction. -/
theorem stepBody_cases {s u : State} (h : stepBody s = .next u) :
    (∃ x, s.wait = .awaitingKey x ∧ u = s.pollKeyboard x) ∨
    (s.wait = .running ∧ (∃ e, decode s.fetch = .error e) ∧ u = s.advancePC) ∨
    (s.wait = .running ∧ ∃ i, decode s.fetch = .ok i ∧ exec i s.advancePC = .next u) := by
  cases hw : s.wait with
  | awaitingKey x =>
    rw [stepBody_awaiting hw] at h
    exact .inl ⟨x, rfl, (Host.Outcome.next.inj h).symm⟩
  | running =>
    rw [stepBody_running hw] at h
    obtain ⟨i, hdecode, hexec⟩ | ⟨herror, hexec⟩ := execWord_cases s.fetch s.advancePC
    · exact .inr (.inr ⟨rfl, i, hdecode, hexec ▸ h⟩)
    · exact .inr (.inl ⟨rfl, herror, (Host.Outcome.next.inj (hexec ▸ h)).symm⟩)

/-- The body leaves time, anchor and pending list to the timer update and the host. -/
theorem stepBody_host {s u : State} (h : stepBody s = .next u) :
    u.anchor3 = s.anchor3 ∧ u.nowMs = s.nowMs ∧ u.pending = s.pending := by
  obtain ⟨x, -, rfl⟩ | ⟨-, -, rfl⟩ | ⟨-, i, -, hexec⟩ := stepBody_cases h
  · simp
  · simp
  · obtain ⟨-, hanchor, hnow, hpending⟩ := exec_host hexec
    exact ⟨hanchor, hnow, hpending⟩

/-- Only FX15 writes `DT` before the timer update. -/
theorem stepBody_DT {s u : State} (h : stepBody s = .next u)
    (hno : s.wait = .running → ∀ x, decode s.fetch ≠ .ok (.ldDtVx x)) : u.DT = s.DT := by
  obtain ⟨x, -, rfl⟩ | ⟨-, -, rfl⟩ | ⟨hw, i, hdecode, hexec⟩ := stepBody_cases h
  · simp
  · simp
  · exact (exec_DT hexec fun x hi => hno hw x (hi ▸ hdecode)).trans (advancePC_DT s)

/-- Only FX18 writes `ST` before the timer update. -/
theorem stepBody_ST {s u : State} (h : stepBody s = .next u)
    (hno : s.wait = .running → ∀ x, decode s.fetch ≠ .ok (.ldStVx x)) : u.ST = s.ST := by
  obtain ⟨x, -, rfl⟩ | ⟨-, -, rfl⟩ | ⟨hw, i, hdecode, hexec⟩ := stepBody_cases h
  · simp
  · simp
  · exact (exec_ST hexec fun x hi => hno hw x (hi ▸ hdecode)).trans (advancePC_ST s)

/-! ## The invariant (spec 10 R13, R25; 60 R129) -/

/-- Every instruction keeps the canonical form of memory: FX33 and FX55 store byte by byte, and no
other stores. -/
theorem exec_mem_wf {i : Instr} {s t : State} (h : exec i s = .next t) (hm : s.mem.wf) :
    t.mem.wf := by
  cases hstores : i.storesMemory with
  | false => rw [exec_mem h hstores]; exact hm
  | true =>
    cases i
    case ldBVx x =>
      obtain rfl := Host.Outcome.next.inj h
      exact writeBytes_wf hm (s.indexed 0) (bcdDigits (s.readV x))
    case ldMemIVx x =>
      obtain rfl := Host.Outcome.next.inj h
      exact storeV_mem_wf s hm (s.indexed 0) (x.toNat + 1)
    all_goals simp [Instr.storesMemory] at hstores

theorem toNat_maskI (n : Nat) : (maskI n).toNat = n % 4096 := by
  rw [maskI, BitVec.toNat_ofNat]; omega

/-- Every value written to `I` has 12 significant bits. -/
theorem exec_I_lt {i : Instr} {s t : State} (h : exec i s = .next t) (hs : s.I.toNat < 4096) :
    t.I.toNat < 4096 := by
  have hmask (n : Nat) : (maskI n).toNat < 4096 := by rw [toNat_maskI]; omega
  cases hwrites : i.writesIndex with
  | false => rw [exec_I h hwrites]; exact hs
  | true =>
    cases i
    case ldIAddr nnn =>
      obtain rfl := Host.Outcome.next.inj h
      rw [setI_I, toNat_zextAddr]; exact nnn.isLt
    case ldFVx x =>
      obtain rfl := Host.Outcome.next.inj h
      rw [setI_I, toNat_glyphAddress]; omega
    case addIVx x | ldMemIVx x | ldVxMemI x =>
      obtain rfl := Host.Outcome.next.inj h
      exact hmask _
    all_goals simp [Instr.writesIndex] at hwrites

/-- A step of the interpreter keeps the invariant; its timer clause holds after every update,
whatever the time before it. -/
theorem interpreterStep_inv {s t : State} (hm : s.mem.wf) (hI : s.I.toNat < 4096)
    (h : interpreterStep s = .next t) : t.Inv := by
  obtain ⟨u, hbody, rfl⟩ := interpreterStep_eq_next.1 h
  obtain ⟨hum, huI⟩ : u.mem.wf ∧ u.I.toNat < 4096 := by
    obtain ⟨x, -, rfl⟩ | ⟨-, -, rfl⟩ | ⟨-, i, -, hexec⟩ := stepBody_cases hbody
    · rw [pollKeyboard_mem, pollKeyboard_I]; exact ⟨hm, hI⟩
    · exact ⟨hm, hI⟩
    · exact ⟨exec_mem_wf hexec hm, exec_I_lt hexec hI⟩
  exact ⟨hum, huI, advanceTimers_due u⟩

/-- The power-on state meets the invariant. -/
theorem reset_inv : State.reset.Inv := ⟨reset_mem_wf, by decide, by decide⟩

/-- Every transaction of the host keeps the invariant. -/
theorem transact_inv {a : Transaction} {s t : State} (hs : s.Inv) (h : transact a s = .next t) :
    t.Inv := by
  obtain ⟨hm, hI, hdue⟩ := hs
  cases a
  case step now => exact interpreterStep_inv (s := s.presentTime now) hm hI h
  case powerOn seed => obtain rfl := Host.Outcome.next.inj h; exact reset_inv
  case reset =>
    obtain rfl := Host.Outcome.next.inj h
    have hI0 : State.reset.I.toNat < 4096 := by decide
    exact ⟨hm, hI0, hdue⟩
  case setKey k p => obtain rfl := Host.Outcome.next.inj h; exact ⟨hm, hI, hdue⟩
  case storeByte a b =>
    obtain rfl := Host.Outcome.next.inj h; exact ⟨write_wf hm a b, hI, hdue⟩
  case storeBytes a bs =>
    obtain rfl := Host.Outcome.next.inj h; exact ⟨writeBytes_wf hm a bs, hI, hdue⟩
  case storeWords a ws e =>
    obtain rfl := Host.Outcome.next.inj h; exact ⟨writeWords_wf hm a ws e, hI, hdue⟩

/-! ## Time, anchor and pending list do not act on a body (spec 60, a model without time) -/

/-- The same machine with another time, anchor and pending list. -/
def State.withHost (s : State) (now anchor : Nat) (p : List Transaction) : State :=
  { s with nowMs := now, anchor3 := anchor, pending := p }

section
variable (s : State) (now anchor : Nat) (p : List Transaction)

theorem skipIf_withHost (c : Bool) :
    (s.withHost now anchor p).skipIf c = (s.skipIf c).withHost now anchor p := by
  cases c <;> rfl

theorem push_withHost (w : Word) :
    (s.withHost now anchor p).push w = (s.push w).withHost now anchor p := by
  by_cases h : s.SP.val < 16
  · rw [push_of_lt s w h, push_of_lt (s.withHost now anchor p) w h]; rfl
  · have hfull : s.SP.val = 16 := by omega
    rw [push_of_full s w hfull, push_of_full (s.withHost now anchor p) w hfull]

theorem popPC_withHost : (s.withHost now anchor p).popPC = s.popPC.withHost now anchor p := by
  by_cases h : 0 < s.SP.val
  · rw [popPC_of_pos s h, popPC_of_pos (s.withHost now anchor p) h]; rfl
  · have hempty : s.SP.val = 0 := by omega
    rw [popPC_of_empty s hempty, popPC_of_empty (s.withHost now anchor p) hempty]

theorem storeV_withHost (a n : Nat) :
    (s.withHost now anchor p).storeV a n = (s.storeV a n).withHost now anchor p := by
  induction n with
  | zero => rfl
  | succ n ih => rw [State.storeV, ih]; rfl

theorem loadV_withHost (a n : Nat) :
    (s.withHost now anchor p).loadV a n = (s.loadV a n).withHost now anchor p := by
  induction n with
  | zero => rfl
  | succ n ih => rw [State.loadV, ih]; rfl

theorem lowestKey_congr {s t : State} (h : t.key = s.key) : t.lowestKey = s.lowestKey :=
  Option.ext fun k => by simp only [lowestKey_eq_some, isPressed_congr h]

theorem pollKeyboard_withHost (x : Nibble) :
    (s.withHost now anchor p).pollKeyboard x = (s.pollKeyboard x).withHost now anchor p := by
  have hkey : (s.withHost now anchor p).lowestKey = s.lowestKey := lowestKey_congr rfl
  obtain ⟨k, hk, hpoll⟩ | ⟨hk, hpoll⟩ := pollKeyboard_cases s x
  · rw [hpoll, pollKeyboard_of_lowest (hkey.trans hk)]; rfl
  · rw [hpoll, pollKeyboard_of_none (hkey.trans hk)]

end

/-- An instruction does the same with any time, anchor and pending list, and keeps them. -/
theorem exec_withHost {i : Instr} {s t : State} (h : exec i s = .next t) (now anchor : Nat)
    (p : List Transaction) :
    exec i (s.withHost now anchor p) = .next (t.withHost now anchor p) := by
  cases i
  case ret ig =>
    obtain rfl := Host.Outcome.next.inj h
    exact congrArg _ (popPC_withHost s now anchor p)
  case callAddr nnn =>
    obtain rfl := Host.Outcome.next.inj h
    exact congrArg _ (congrArg (State.setPC · _) (push_withHost s now anchor p _))
  case seVxByte | sneVxByte | seVxVy | sneVxVy | skpVx | sknpVx =>
    obtain rfl := Host.Outcome.next.inj h
    exact congrArg _ (skipIf_withHost s now anchor p _)
  case ldMemIVx x =>
    obtain rfl := Host.Outcome.next.inj h
    exact congrArg _ (congrArg (State.setI · _) (storeV_withHost s now anchor p _ _))
  case ldVxMemI x =>
    obtain rfl := Host.Outcome.next.inj h
    exact congrArg _ (congrArg (State.setI · _) (loadV_withHost s now anchor p _ _))
  all_goals
    obtain rfl := Host.Outcome.next.inj h
    rfl

/-- Nor does a body as a whole depend on them. -/
theorem stepBody_withHost {s u : State} (h : stepBody s = .next u) (now anchor : Nat)
    (p : List Transaction) :
    stepBody (s.withHost now anchor p) = .next (u.withHost now anchor p) := by
  obtain ⟨x, hw, rfl⟩ | ⟨hw, ⟨e, herror⟩, rfl⟩ | ⟨hw, i, hdecode, hexec⟩ := stepBody_cases h
  · rw [stepBody_awaiting (s := s.withHost now anchor p) hw, pollKeyboard_withHost]
  · rw [stepBody_running (s := s.withHost now anchor p) hw]
    exact execWord_error herror _
  · rw [stepBody_running (s := s.withHost now anchor p) hw]
    exact (execWord_ok hdecode _).trans (exec_withHost hexec now anchor p)

/-- The timer update acts on the timers through the tick count alone. -/
theorem advanceTimers_withHost (s : State) (now anchor : Nat) (p : List Transaction) :
    (s.withHost now anchor p).advanceTimers = (s.applyTicks (tickCount now anchor)).withHost now
      (anchor + Config.tickPeriod3 * tickCount now anchor) p := rfl

/-! ## The statements -/

/-- Settles O46: the next event is a transaction or a step of the interpreter, and both keep the
invariant; the pending list is no part of it. -/
theorem stepKeepsTheInvariant : Obligations.StepKeepsTheInvariant := by
  intro s t hs h
  cases hp : s.pending with
  | nil =>
    obtain ⟨hm, hI, -⟩ := hs
    rw [step_of_nil hp] at h
    exact interpreterStep_inv hm hI h
  | cons a rest =>
    have hrest : ({ s with pending := rest } : State).Inv := hs
    rw [step_of_cons hp] at h
    exact transact_inv hrest h

/-- Settles O47: `I` and the anchor are 0 and no address differs from the power-on contents. -/
theorem resetMeetsTheInvariant : Obligations.ResetMeetsTheInvariant := reset_inv

/-- Settles O38: with no wait open the body is the dispatch, and the dispatch runs what the opcode
at `PC` decodes to, also where the host presents the time. -/
theorem stepRunsTheDecodedInstruction : Obligations.StepRunsTheDecodedInstruction := by
  refine ⟨fun i s hp hw hd => ?_, fun i s now rest hp hw hd => ?_, fun s => ⟨?_, setPC_frame s _⟩,
    withTimers_next⟩
  · rw [step_of_nil hp, interpreterStep_running hw, execWord_ok hd]
  · rw [step_of_cons hp]
    have hrun : ({ s with pending := rest, nowMs := now } : State).wait = .running := hw
    exact (interpreterStep_running hrun).trans (congrArg withTimers (execWord_ok hd _))
  · rw [advancePC_PC, BitVec.toNat_add]; rfl

/-- Settles O39: the two steps have one body, which the pending list does not act on. -/
theorem pendingStepActsAtItsTime : Obligations.PendingStepActsAtItsTime := by
  intro s now rest hp
  obtain ⟨t, ht⟩ := interpreterStep_succeeds (s.withHost now s.anchor3 [])
  obtain ⟨u, hbody, rfl⟩ := interpreterStep_eq_next.1 ht
  obtain ⟨hanchor, hnow, -⟩ := stepBody_host hbody
  have hu : u.withHost now s.anchor3 rest = { u with pending := rest } := by
    simp [State.withHost, hanchor, hnow]
  refine ⟨_, ht, ?_⟩
  change step s = .next ({ u with pending := rest } : State).advanceTimers
  rw [step_of_cons hp, ← hu]
  exact interpreterStep_eq_next.2 ⟨_, stepBody_withHost hbody now s.anchor3 rest, rfl⟩

/-- Settles O44: neither an unassigned opcode nor an instruction that does not assign `PC` moves it
after the increment of the fetch, and the timer update leaves it alone. -/
theorem nonBranchingStepAdvancesPCByTwo : Obligations.NonBranchingStepAdvancesPCByTwo := by
  intro s t hp hw hno h
  rw [step_of_nil hp] at h
  obtain ⟨u, hbody, rfl⟩ := interpreterStep_eq_next.1 h
  have hPC : u.PC = s.PC + 2#16 := by
    obtain ⟨x, hwait, -⟩ | ⟨-, -, rfl⟩ | ⟨-, i, hdecode, hexec⟩ := stepBody_cases hbody
    · simp [hw] at hwait
    · exact advancePC_PC s
    · exact (exec_PC hexec (hno i hdecode)).trans (advancePC_PC s)
  rw [advanceTimers_PC, hPC, BitVec.toNat_add]
  rfl

/-- Settles O54: the body leaves a timer that its instruction does not write as it is, and the
update lowers it by the ticks due at the time presented. -/
theorem timersNeverRiseUnlessWritten : Obligations.TimersNeverRiseUnlessWritten := by
  intro s t hp h
  rw [step_of_nil hp] at h
  obtain ⟨u, hbody, rfl⟩ := interpreterStep_eq_next.1 h
  obtain ⟨hanchor, hnow, -⟩ := stepBody_host hbody
  refine ⟨fun hno => ?_, fun hno => ?_⟩
  · rw [advanceTimers_DT, toNat_countDown, stepBody_DT hbody hno, hnow, hanchor]
  · rw [advanceTimers_ST, toNat_countDown, stepBody_ST hbody hno, hnow, hanchor]

/-- Settles O55: the two steps have one body, and its timer update counts the same ticks. -/
theorem timeActsOnlyThroughTheTickCount : Obligations.TimeActsOnlyThroughTheTickCount := by
  intro s t now anchor hp hticks h
  rw [step_of_nil hp] at h
  obtain ⟨u, hbody, rfl⟩ := interpreterStep_eq_next.1 h
  obtain ⟨hanchor, hnow, hpending⟩ := stepBody_host hbody
  refine ⟨(u.withHost now anchor []).advanceTimers, ?_, ?_⟩
  · have hnil : ({ s with nowMs := now, anchor3 := anchor } : State).pending = [] := hp
    rw [step_of_nil hnil, ← hp]
    exact interpreterStep_eq_next.2 ⟨_, stepBody_withHost hbody now anchor s.pending, rfl⟩
  · have hsame : tickCount now anchor = tickCount u.nowMs u.anchor3 := by
      rw [hticks, hnow, hanchor]
    have hu : u.advanceTimers.pending = [] := hpending.trans hp
    rw [advanceTimers_withHost, hsame, ← hu]
    rfl

end Sys2Proof.Machine
end

-- Timers over one update and over a run of pending steps (spec 60 R127 to R133), and the key wait
-- that outlasts such a run.
section

namespace Sys2Proof.Machine

/-! ## One pending step -/

theorem step_of_pendingStep {s : State} {now : Nat} {rest : List Transaction}
    (hp : s.pending = .step now :: rest) :
    step s = interpreterStep (s.withHost now s.anchor3 rest) := step_of_cons hp

/-- What a pending step does to time, anchor and the list, and to each timer that it does not
write. -/
theorem pendingStep_timers {s : State} {now : Nat} {rest : List Transaction}
    (hp : s.pending = .step now :: rest) :
    ∃ t, step s = .next t ∧ t.pending = rest ∧ t.nowMs = now ∧
      t.anchor3 = s.anchor3 + 50 * tickCount now s.anchor3 ∧
      ((s.wait = .running → ∀ x, decode s.fetch ≠ .ok (.ldDtVx x)) →
        t.DT.toNat = s.DT.toNat - tickCount now s.anchor3) ∧
      ((s.wait = .running → ∀ x, decode s.fetch ≠ .ok (.ldStVx x)) →
        t.ST.toNat = s.ST.toNat - tickCount now s.anchor3) := by
  obtain ⟨t, ht⟩ := interpreterStep_succeeds (s.withHost now s.anchor3 rest)
  obtain ⟨u, hbody, rfl⟩ := interpreterStep_eq_next.1 ht
  obtain ⟨hanchor, hnow, hpending⟩ := stepBody_host hbody
  have hticks : tickCount u.nowMs u.anchor3 = tickCount now s.anchor3 := by rw [hnow, hanchor]; rfl
  refine ⟨_, (step_of_pendingStep hp).trans ht, hpending, hnow, ?_, fun hno => ?_, fun hno => ?_⟩
  · rw [advanceTimers_anchor3, hticks, hanchor]; rfl
  · rw [advanceTimers_DT, toNat_countDown, hticks, stepBody_DT hbody hno]; rfl
  · rw [advanceTimers_ST, toNat_countDown, hticks, stepBody_ST hbody hno]; rfl

/-! ## A run of pending steps -/

/-- A run of pending steps at rising times delivers one number of ticks to both timers, and leaves
the anchor within one period of the last time. -/
theorem run_pendingSteps (times : List Nat) : ∀ s : State, s.anchor3 ≤ 3 * s.nowMs →
    3 * s.nowMs < s.anchor3 + 50 → NonDecreasing s.nowMs times →
    s.pending = times.map Transaction.step →
    ∃ (t : State) (n : Nat), Host.Core.run Sys2Proof.core times.length s = .next t ∧
      s.anchor3 + 50 * n ≤ 3 * lastTime s.nowMs times ∧
      3 * lastTime s.nowMs times < s.anchor3 + 50 * n + 50 ∧
      (s.NoneExecuted times.length (fun i => ∃ x, i = .ldDtVx x) →
        t.DT.toNat = s.DT.toNat - n) ∧
      (s.NoneExecuted times.length (fun i => ∃ x, i = .ldStVx x) →
        t.ST.toNat = s.ST.toNat - n) := by
  induction times with
  | nil => exact fun s hanchor hdue _ _ => ⟨s, 0, rfl, hanchor, hdue, fun _ => rfl, fun _ => rfl⟩
  | cons now rest ih =>
    intro s hanchor hdue hrise hp
    obtain ⟨hnow, hrise⟩ := hrise
    obtain ⟨u, hstep, hup, hunow, huanchor, huDT, huST⟩ := pendingStep_timers hp
    obtain ⟨hlow, hhigh⟩ := tickCount_spec (now := now) (anchor := s.anchor3) (by omega)
    rw [← hunow] at hrise
    obtain ⟨t, n, hrun, hn1, hn2, htDT, htST⟩ := ih u (by omega) (by omega) hrise hup
    rw [hunow] at hn1 hn2
    refine ⟨t, tickCount now s.anchor3 + n, (run_succ_of_step hstep _).trans hrun, ?_, ?_,
      fun hno => ?_, fun hno => ?_⟩
    · rw [lastTime]; omega
    · rw [lastTime]; omega
    · have hhead := huDT fun hw x hd => noneExecuted_head hno hw hd ⟨x, rfl⟩
      rw [htDT (noneExecuted_tail hstep hno), hhead, Nat.sub_sub]
    · have hhead := huST fun hw x hd => noneExecuted_head hno hw hd ⟨x, rfl⟩
      rw [htST (noneExecuted_tail hstep hno), hhead, Nat.sub_sub]

theorem lastTime_ge (times : List Nat) : ∀ t0, NonDecreasing t0 times → t0 ≤ lastTime t0 times := by
  induction times with
  | nil => exact fun t0 _ => le_rfl
  | cons now rest ih => exact fun t0 h => h.1.trans (ih now h.2)

/-! ## The key wait -/

/-- A pending step in the wait, with no key pressed, is a timer update. -/
theorem pendingStep_wait {s : State} {x : Nibble} {now : Nat} {rest : List Transaction}
    (hw : s.wait = .awaitingKey x) (hnone : ∀ k, s.isPressed k = false)
    (hp : s.pending = .step now :: rest) :
    step s = .next (s.withHost now s.anchor3 rest).advanceTimers := by
  have hno : (s.withHost now s.anchor3 rest).lowestKey = none := (lowestKey_eq_none _).2 hnone
  have hwait : (s.withHost now s.anchor3 rest).wait = .awaitingKey x := hw
  rw [step_of_pendingStep hp, interpreterStep_awaiting hwait, pollKeyboard_of_none hno]

/-! ## The statements -/

/-- Settles O52: the number of whole periods is the tick count, and a time behind the anchor has
none. -/
theorem timerUpdateDeliversWholePeriods : Obligations.TimerUpdateDeliversWholePeriods := by
  refine fun s => ⟨fun h => ?_, fun h => advanceTimers_of_zero s (tickCount_of_lt h), ?_⟩
  · obtain ⟨hlow, hhigh⟩ := tickCount_spec h
    exact ⟨tickCount s.nowMs s.anchor3, rfl, hlow, hhigh, toNat_countDown _ _, toNat_countDown _ _⟩
  · constructor
    case dt | st => simp
    all_goals intros; rfl

/-- Settles O53: the anchor lies within one period behind the time at the start and at the end, so
the ticks between differ from the periods between by less than one. -/
theorem timersFallAtSixtyHertz : Obligations.TimersFallAtSixtyHertz := by
  intro s times hanchor hdue hrise hp
  obtain ⟨t, n, hrun, hlow, hhigh, hDT, hST⟩ := run_pendingSteps times s hanchor hdue hrise hp
  have hlast := lastTime_ge times s.nowMs hrise
  exact ⟨t, n, hrun, by omega, by omega, hDT, hST⟩

/-- Settles O56: by induction on the times; each step is a timer update, which keeps the wait and
the latch. -/
theorem keyWaitHoldsWithoutAKey : Obligations.KeyWaitHoldsWithoutAKey := by
  intro times
  induction times with
  | nil =>
    intro s x _ _ hp
    refine ⟨s, rfl, s.DT, s.ST, s.anchor3, ?_, le_rfl, le_rfl⟩
    change s.pending = [] at hp
    rw [← hp]; rfl
  | cons now rest ih =>
    intro s x hw hnone hp
    have hstep := pendingStep_wait hw hnone hp
    obtain ⟨t, hrun, dt, st, anchor, rfl, hdt, hst⟩ :=
      ih (s.withHost now s.anchor3 (rest.map Transaction.step)).advanceTimers x hw hnone rfl
    rw [advanceTimers_DT, toNat_countDown] at hdt
    rw [advanceTimers_ST, toNat_countDown] at hst
    exact ⟨_, (run_succ_of_step hstep _).trans hrun, dt, st, anchor, rfl,
      hdt.trans (Nat.sub_le _ _), hst.trans (Nat.sub_le _ _)⟩

end Sys2Proof.Machine
end

-- Subroutine calls (spec 41 R70, R72): what CALL pushes, and that RET takes it back.
section

namespace Sys2Proof.Machine

variable (s : State)

theorem exec_callAddr (nnn : Addr) :
    exec (.callAddr nnn) s = .next ((s.push s.PC).setPC (zextAddr nnn)) := rfl

/-- A call writes `PC`, `SP` and the entry at `SP`; on the full stack no entry has that index. -/
theorem call_frame (w ret : Word) :
    Frame.Holds { pc := true, sp := true, stack := fun k => k == s.SP.val } s
      ((s.push ret).setPC w) := by
  constructor
  case stack =>
    intro k hk
    have hne : s.SP.val ≠ k.val := fun e => by simp [e] at hk
    by_cases h : s.SP.val < 16
    · rw [push_of_lt s ret h]
      exact Vector.getElem_set_ne h k.isLt hne
    · rw [push_of_full s ret (by omega)]; rfl
  all_goals simp

/-! ## The statements -/

/-- Settles O9: the push has two cases, room for an entry and the full stack; both jump. -/
theorem callPushesAndJumps : Obligations.CallPushesAndJumps := by
  refine ⟨selectsAs_row 3 (by decide) fun op => congrArg Instr.callAddr (fieldNNN_eq_num op),
    fun nnn s => ⟨_, exec_callAddr s nnn, toNat_zextAddr nnn, fun hroom => ?_, fun hfull => ?_,
      call_frame s _ _⟩⟩
  · rw [push_of_lt s s.PC hroom]
    exact ⟨rfl, Vector.getElem_set_self hroom⟩
  · rw [push_of_full s s.PC hfull]
    exact ⟨rfl, rfl⟩

/-- Settles O13: the call leaves `PC` in the entry below its `SP`, the one that a return pops. -/
theorem returnUndoesCall : Obligations.ReturnUndoesCall := by
  intro nnn ig s t u hroom hcall hSP hstack
  obtain ⟨t', hcall', -, hpush, -⟩ := callPushesAndJumps.2 nnn s
  obtain rfl : t' = t := Host.Outcome.next.inj (hcall'.symm.trans hcall)
  obtain ⟨htSP, hentry⟩ := hpush hroom
  obtain ⟨w, hret, hpop, -⟩ := returnPopsIntoPC.2 ig u
  have huSP : u.SP.val = s.SP.val + 1 := by rw [hSP, htSP]
  obtain ⟨hwSP, hwPC⟩ := hpop (by omega)
  have hindex : u.SP.val - 1 = s.SP.val := by omega
  refine ⟨w, hret, ?_, Fin.ext (hwSP.trans hindex)⟩
  rw [hwPC, ← hentry]
  simp only [hindex, hstack]

end Sys2Proof.Machine
end

-- Logic, arithmetic with a flag, shifts and the random byte (spec 42 R83 to R91).
section

namespace Sys2Proof.Machine

variable (s : State)

/-! ## The arms -/

theorem exec_orVxVy (x y : Nibble) :
    exec (.orVxVy x y) s = .next (s.writeV x (s.readV x ||| s.readV y)) := rfl

theorem exec_andVxVy (x y : Nibble) :
    exec (.andVxVy x y) s = .next (s.writeV x (s.readV x &&& s.readV y)) := rfl

theorem exec_xorVxVy (x y : Nibble) :
    exec (.xorVxVy x y) s = .next (s.writeV x (s.readV x ^^^ s.readV y)) := rfl

theorem exec_addVxVy (x y : Nibble) : exec (.addVxVy x y) s =
    .next (s.writeFlagThenV (carryOut (s.readV x) (s.readV y)) x (s.readV x + s.readV y)) := rfl

theorem exec_subVxVy (x y : Nibble) : exec (.subVxVy x y) s =
    .next (s.writeFlagThenV (strictlyGreater (s.readV x) (s.readV y)) x
      (s.readV x - s.readV y)) := rfl

theorem exec_subnVxVy (x y : Nibble) : exec (.subnVxVy x y) s =
    .next (s.writeFlagThenV (strictlyGreater (s.readV y) (s.readV x)) x
      (s.readV y - s.readV x)) := rfl

theorem exec_shrVxVy (x y : Nibble) : exec (.shrVxVy x y) s =
    .next (s.writeFlagThenV (bitOutRight (s.readV y)) x (s.readV y >>> 1)) := rfl

theorem exec_shlVxVy (x y : Nibble) : exec (.shlVxVy x y) s =
    .next (s.writeFlagThenV (bitOutLeft (s.readV y)) x (s.readV y <<< 1)) := rfl

theorem exec_rndVxByte (x : Nibble) (kk : Byte) : exec (.rndVxByte x kk) s =
    .next ((s.setRng (randStep s.rng).2).writeV x ((randStep s.rng).1 &&& kk)) := rfl

/-! ## Flag and result -/

theorem writeFlagThenV_frame (c : Bool) (x : Nibble) (r : Byte) :
    (Frame.regAndFlag x).Holds s (s.writeFlagThenV c x r) := by
  constructor
  case v =>
    intro z hz
    obtain ⟨hx, hvf⟩ : z ≠ x ∧ z ≠ vf := by simpa [Frame.regAndFlag] using hz
    rw [readV_writeFlagThenV, if_neg hx, if_neg hvf]
  all_goals simp

/-- The flag as a number. -/
theorem toNat_flag (b : Bool) : (flag b).toNat = if b = true then 1 else 0 := by
  cases b <;> rfl

/-- An instruction that writes a flag and a result, the flag first: both as numbers, the flag where
the result did not take its place, and the frame. -/
theorem flagThenV_of_exec {s : State} {i : Instr} {c : Bool} {x : Nibble} {r : Byte}
    {result flagValue : Nat} (hexec : exec i s = .next (s.writeFlagThenV c x r))
    (hresult : r.toNat = result) (hflag : (flag c).toNat = flagValue) :
    ∃ t, exec i s = .next t ∧ (t.readV x).toNat = result ∧
      (x ≠ 0xF#4 → (t.readV 0xF#4).toNat = flagValue) ∧ (Frame.regAndFlag x).Holds s t := by
  refine ⟨_, hexec, ?_, fun hx => ?_, writeFlagThenV_frame s c x r⟩
  · rw [readV_writeFlagThenV, if_pos rfl, hresult]
  · rw [readV_writeFlagThenV, if_neg (Ne.symm hx), if_pos (show 0xF#4 = vf from rfl), hflag]

theorem toNat_flag_carryOut (a b : Byte) :
    (flag (carryOut a b)).toNat = if a.toNat + b.toNat > 0xFF then 1 else 0 := by
  simp [toNat_flag, carryOut]

theorem toNat_flag_strictlyGreater (a b : Byte) :
    (flag (strictlyGreater a b)).toNat = if a.toNat > b.toNat then 1 else 0 := by
  simp [toNat_flag, strictlyGreater]

/-- The difference modulo 256. -/
theorem toNat_sub_byte (a b : Byte) : (a - b).toNat = (a.toNat + 256 - b.toNat) % 256 := by
  have hb : b.toNat < 256 := b.isLt
  rw [BitVec.toNat_sub]
  congr 1
  omega

theorem toNat_flag_bitOutRight (b : Byte) : (flag (bitOutRight b)).toNat = b.toNat % 2 := by
  rw [toNat_flag, bitOutRight, BitVec.getLsbD, Nat.testBit_zero]
  simp only [decide_eq_true_eq]
  split <;> omega

theorem toNat_flag_bitOutLeft (b : Byte) : (flag (bitOutLeft b)).toNat = b.toNat / 128 := by
  have hb : b.toNat < 256 := b.isLt
  rw [toNat_flag, bitOutLeft, BitVec.getLsbD, Nat.testBit_eq_decide_div_mod_eq]
  simp only [decide_eq_true_eq]
  split <;> omega

theorem toNat_shiftRight_one (b : Byte) : (b >>> 1).toNat = b.toNat / 2 := by
  rw [BitVec.toNat_ushiftRight, Nat.shiftRight_eq_div_pow]

theorem toNat_shiftLeft_one (b : Byte) : (b <<< 1).toNat = b.toNat * 2 % 256 := by
  rw [BitVec.toNat_shiftLeft, Nat.shiftLeft_eq]

/-! ## The random byte -/

theorem drawV_frame (r : RngState) (x : Nibble) (b : Byte) :
    Frame.Holds { v := fun z => z == x, rng := true } s ((s.setRng r).writeV x b) := by
  constructor
  case v =>
    intro z hz
    rw [readV_writeV_other _ (by simpa using hz), readV_setRng]
  all_goals simp

/-! ## The statements -/

/-- Settles O17: one register write each, so VF changes only as the destination. -/
theorem logicIsBitwiseWithoutFlag : Obligations.LogicIsBitwiseWithoutFlag := by
  refine ⟨selectsAs_row 10 (by decide) fun op =>
      congrArg₂ Instr.orVxVy (fieldX_eq_num op) (fieldY_eq_num op),
    selectsAs_row 11 (by decide) fun op =>
      congrArg₂ Instr.andVxVy (fieldX_eq_num op) (fieldY_eq_num op),
    selectsAs_row 12 (by decide) fun op =>
      congrArg₂ Instr.xorVxVy (fieldX_eq_num op) (fieldY_eq_num op),
    fun x y s => ⟨⟨_, exec_orVxVy s x y, writeV_frame s x _, fun b => ?_⟩,
      ⟨_, exec_andVxVy s x y, writeV_frame s x _, fun b => ?_⟩,
      ⟨_, exec_xorVxVy s x y, writeV_frame s x _, fun b => ?_⟩⟩⟩
  · rw [readV_writeV_same, BitVec.getLsbD_or]
  · rw [readV_writeV_same, BitVec.getLsbD_and]
  · rw [readV_writeV_same, BitVec.getLsbD_xor]

/-- Settles O18: the 8-bit sum, and the carry that `carryOut` reads off the operands. -/
theorem addSetsCarry : Obligations.AddSetsCarry :=
  ⟨selectsAs_row 13 (by decide) fun op =>
      congrArg₂ Instr.addVxVy (fieldX_eq_num op) (fieldY_eq_num op),
    fun x y s => flagThenV_of_exec (exec_addVxVy s x y) (BitVec.toNat_add _ _)
      (toNat_flag_carryOut _ _)⟩

/-- Settles O19: SUB and SUBN are one operation with its operands exchanged. -/
theorem subtractSetsStrictFlag : Obligations.SubtractSetsStrictFlag :=
  ⟨selectsAs_row 14 (by decide) fun op =>
      congrArg₂ Instr.subVxVy (fieldX_eq_num op) (fieldY_eq_num op),
    selectsAs_row 16 (by decide) fun op =>
      congrArg₂ Instr.subnVxVy (fieldX_eq_num op) (fieldY_eq_num op),
    fun x y s => ⟨flagThenV_of_exec (exec_subVxVy s x y) (toNat_sub_byte _ _)
        (toNat_flag_strictlyGreater _ _),
      flagThenV_of_exec (exec_subnVxVy s x y) (toNat_sub_byte _ _)
        (toNat_flag_strictlyGreater _ _)⟩⟩

/-- Settles O20: the result and the flag both come from `V[y]`. -/
theorem shiftMovesVyIntoVx : Obligations.ShiftMovesVyIntoVx :=
  ⟨selectsAs_row 15 (by decide) fun op =>
      congrArg₂ Instr.shrVxVy (fieldX_eq_num op) (fieldY_eq_num op),
    selectsAs_row 17 (by decide) fun op =>
      congrArg₂ Instr.shlVxVy (fieldX_eq_num op) (fieldY_eq_num op),
    fun x y s => ⟨flagThenV_of_exec (exec_shrVxVy s x y) (toNat_shiftRight_one _)
        (toNat_flag_bitOutRight _),
      flagThenV_of_exec (exec_shlVxVy s x y) (toNat_shiftLeft_one _)
        (toNat_flag_bitOutLeft _)⟩⟩

/-- Settles O21: whatever byte is drawn, the mask clears the bits outside the immediate. -/
theorem randomByteIsMasked : Obligations.RandomByteIsMasked := by
  refine ⟨selectsAs_row 21 (by decide) fun op =>
      congrArg₂ Instr.rndVxByte (fieldX_eq_num op) (fieldKK_eq_num op),
    fun x kk s => ⟨_, exec_rndVxByte s x kk, readV_writeV_same _ x _, ?_, rfl, rfl, rfl,
      drawV_frame s _ x _⟩⟩
  rw [readV_writeV_same, BitVec.and_assoc, BitVec.and_not_self]
  exact BitVec.and_zero

end Sys2Proof.Machine
end

-- Index register arithmetic and the register blocks (spec 43 R96, R98 to R100): FX1E, the digits of
-- FX33 as a sum, and FX55 and FX65 as loops over the registers.
section

namespace Sys2Proof.Machine

variable (s : State)

/-! ## The arms -/

theorem exec_addIVx (x : Nibble) :
    exec (.addIVx x) s = .next (s.setI (maskI (s.I.toNat + (s.readV x).toNat))) := rfl

theorem exec_ldMemIVx (x : Nibble) : exec (.ldMemIVx x) s =
    .next ((s.storeV (s.indexed 0) (x.toNat + 1)).setI (maskI (s.indexed (x.toNat + 1)))) := rfl

theorem exec_ldVxMemI (x : Nibble) : exec (.ldVxMemI x) s =
    .next ((s.loadV (s.indexed 0) (x.toNat + 1)).setI (maskI (s.indexed (x.toNat + 1)))) := rfl

/-! ## Frames of the block loops -/

/-- The block store reaches the block at `I` and nothing else but `I`. -/
theorem storeBlock_frame (n : Nat) (w : Word) :
    Frame.Holds { i := true, mem := s.block n } s ((s.storeV (s.indexed 0) n).setI w) := by
  constructor
  case mem =>
    intro a ha
    have houtside : ∀ k < n, Memory.wrap a ≠ Memory.wrap (s.indexed 0 + k) := by
      simpa [State.block, State.indexed] using ha
    rw [loadByte_setI, loadByte_storeV_other s _ n a houtside]
  all_goals simp

/-- The block load reaches the registers up to the last and nothing else but `I`. -/
theorem loadBlock_frame (x : Nibble) (w : Word) :
    Frame.Holds { v := fun z => decide (z.toNat ≤ x.toNat), i := true } s
      ((s.loadV (s.indexed 0) (x.toNat + 1)).setI w) := by
  constructor
  case v =>
    intro z hz
    have hlater : ¬ z.toNat < x.toNat + 1 := by simpa [Nat.lt_succ_iff] using hz
    rw [readV_setI, readV_loadV s _ _ (by omega), if_neg hlater]
  all_goals simp

/-! ## The statements -/

/-- Settles O24: one assignment of the masked sum. -/
theorem addToIndexWrapsAt12Bits : Obligations.AddToIndexWrapsAt12Bits :=
  ⟨selectsAs_row 29 (by decide) fun op => congrArg Instr.addIVx (fieldX_eq_num op),
    fun x s => ⟨_, exec_addIVx s x, toNat_maskI _, setI_frame s _⟩⟩

/-- Settles O26: the three digits as O25 has them; FX33 leaves `I` where it was. -/
theorem bcdDigitsMakeUpTheValue : Obligations.BcdDigitsMakeUpTheValue := by
  intro x s t h
  obtain ⟨t', h', hhundreds, htens, hones, hframe⟩ := bcdStoresThreeDigits.2 x s
  obtain rfl : t' = t := Host.Outcome.next.inj (h'.symm.trans h)
  have hindexed (k : Nat) : t'.indexed k = s.indexed k := by
    rw [State.indexed, hframe.i rfl, State.indexed]
  rw [hindexed, hindexed, hindexed, hhundreds, htens, hones]
  omega

/-- Settles O27: the block is read back register by register, since its 16 addresses at most do not
meet; the last address plus one, masked, goes to `I`. -/
theorem storeRegistersWritesBlock : Obligations.StoreRegistersWritesBlock := by
  refine ⟨selectsAs_row 32 (by decide) fun op => congrArg Instr.ldMemIVx (fieldX_eq_num op),
    fun x s => ⟨_, exec_ldMemIVx s x, fun k hk => ?_, toNat_maskI _, storeBlock_frame s _ _⟩⟩
  exact loadByte_storeV s (s.indexed 0) (x.toNat + 1) (by omega) k (by omega)

/-- Settles O28: register `k` is loaded from the byte at `I + k`; the last address plus one, masked,
goes to `I`. -/
theorem loadRegistersReadsBlock : Obligations.LoadRegistersReadsBlock := by
  refine ⟨selectsAs_row 33 (by decide) fun op => congrArg Instr.ldVxMemI (fieldX_eq_num op),
    fun x s => ⟨_, exec_ldVxMemI s x, fun k hk => ?_, toNat_maskI _, loadBlock_frame s x _⟩⟩
  rw [readV_setI, readV_loadV s _ _ (by omega), if_pos (by omega)]
  rfl

/-- Settles O29: FX65 reads from each address of the block what FX55 left there. -/
theorem loadRegistersUndoesStore : Obligations.LoadRegistersUndoesStore := by
  intro x s t u h hmem hI
  obtain ⟨t', h', hstored, htI, -⟩ := storeRegistersWritesBlock.2 x s
  obtain rfl : t' = t := Host.Outcome.next.inj (h'.symm.trans h)
  obtain ⟨w, hload, hloaded, hwI, -⟩ := loadRegistersReadsBlock.2 x u
  refine ⟨w, hload, BitVec.eq_of_toNat_eq (by rw [hwI, htI, hI]), fun k hk => ?_⟩
  rw [hloaded k hk, loadByte_congr hmem, ← hstored k hk, State.indexed, hI, State.indexed]

end Sys2Proof.Machine
end

-- Drawing (spec 44 R106): the blit's picture is the sprite of the statement, and XORing it twice
-- restores the screen.
section

namespace Sys2Proof.Machine

variable (s : State)

theorem exec_drwVxVyN (x y n : Nibble) : exec (.drwVxVyN x y n) s =
    .next ((s.setFB (s.drawSprite x y n).1).writeV vf (flag (s.drawSprite x y n).2)) := rfl

theorem drawFlag_frame (fb : Framebuffer) (b : Byte) :
    Frame.Holds { v := fun z => z == vf, fb := true } s ((s.setFB fb).writeV vf b) := by
  constructor
  case v =>
    intro z hz
    rw [readV_writeV_other _ (by simpa using hz), readV_setFB]
  all_goals simp

/-- What the loops of DXYN draw is the sprite's picture: the byte of a row lies at `I` plus the
row. -/
theorem pixel_drawSprite (x y n : Nibble) (px py : Nat) :
    (s.drawSprite x y n).1.pixel px py = (s.pixel px py ^^ s.spriteBit x y n px py) :=
  (drawSprite_spec s x y n).1 px py

/-- The drawing reports a cleared pixel: one that was lit and on which a sprite bit falls. -/
theorem drawSprite_hit (x y n : Nibble) :
    (s.drawSprite x y n).2 = true ↔ ∃ px py, px < 64 ∧ py < 32 ∧ s.pixel px py = true ∧
      (s.drawSprite x y n).1.pixel px py = false := by
  rw [(drawSprite_spec s x y n).2]
  have hcleared (px py : Nat) (hlit : s.pixel px py = true) :
      (s.drawSprite x y n).1.pixel px py = false ↔ s.spriteBit x y n px py = true := by
    rw [pixel_drawSprite, hlit]; simp
  constructor
  · rintro ⟨px, py, hx, hy, hlit, hbit⟩
    exact ⟨px, py, hx, hy, hlit, (hcleared px py hlit).2 hbit⟩
  · rintro ⟨px, py, hx, hy, hlit, hdark⟩
    exact ⟨px, py, hx, hy, hlit, (hcleared px py hlit).1 hdark⟩

/-! ## The statements -/

/-- Settles O31: the blit XORs the sprite's picture, and the flag is what it reports. -/
theorem drawXorsTheSprite : Obligations.DrawXorsTheSprite := by
  refine ⟨selectsAs_row 22 (by decide) fun op => ?_,
    fun x y n s => ⟨_, exec_drwVxVyN s x y n, fun px py _ _ => pixel_drawSprite s x y n px py,
      fun hsome => ?_, fun hnone => ?_, drawFlag_frame s _ _⟩⟩
  · rw [← fieldX_eq_num, ← fieldY_eq_num, ← fieldN_eq_num]; rfl
  · have hhit := (drawSprite_hit s x y n).2 hsome
    exact (readV_writeV_same _ vf _).trans (by rw [hhit]; rfl)
  · have hmiss := Bool.eq_false_of_not_eq_true (mt (drawSprite_hit s x y n).1 hnone)
    exact (readV_writeV_same _ vf _).trans (by rw [hmiss]; rfl)

/-- Settles O32: the second draw has the same picture, since the first kept memory and `I`, and a
picture XORed twice cancels out. -/
theorem drawTwiceRestoresTheScreen : Obligations.DrawTwiceRestoresTheScreen := by
  intro x y n s t u hfirst hsecond
  obtain rfl := Host.Outcome.next.inj hfirst
  obtain rfl := Host.Outcome.next.inj hsecond
  refine fb_ext fun px py _ _ => ?_
  refine (pixel_drawSprite _ x y n px py).trans ?_
  change ((s.drawSprite x y n).1.pixel px py ^^ s.spriteBit x y n px py) = s.pixel px py
  rw [pixel_drawSprite, Bool.xor_assoc, Bool.xor_self, Bool.xor_false]

end Sys2Proof.Machine
end

-- The key skip on a released key (spec 45 R111).
section

namespace Sys2Proof.Machine

theorem exec_sknpVx (s : State) (x : Nibble) :
    exec (.sknpVx x) s = .next (s.skipIf (!s.isPressed (keyIndex (s.readV x)))) := rfl

/-- Settles O34: the skip of EX9E with the level negated. -/
theorem skipIfKeyReleased : Obligations.SkipIfKeyReleased := by
  refine ⟨selectsAs_row 24 (by decide) fun op => congrArg Instr.sknpVx (fieldX_eq_num op),
    fun x s => ⟨_, exec_sknpVx s x, ?_, skipIf_frame s _⟩⟩
  rw [toNat_skipIf_PC, keyIndex_eq_ofNat]
  cases s.isPressed (BitVec.ofNat 4 (s.readV x).toNat) <;> rfl

end Sys2Proof.Machine
end

-- Bulk stores of the host (spec 20 R36, R38), and that the canonical form of memory is unique.
section

namespace Sys2Proof.Machine

/-! ## Words as bytes (spec 20 R35, R38) -/

@[simp] theorem length_wordBytes (e : Endian) (w : Word) : (wordBytes e w).length = 2 := by
  cases e <;> rfl

theorem length_flatMap_wordBytes (e : Endian) (ws : List Word) :
    (ws.flatMap (wordBytes e)).length = 2 * ws.length := by
  simp [List.length_flatMap, Nat.mul_comm]

/-- Byte `2 * i + j` of a word slice is byte `j` of its word `i`. -/
theorem getElem_flatMap_wordBytes (e : Endian) (ws : List Word) (i j : Nat) (hi : i < ws.length)
    (hj : j < 2) :
    (ws.flatMap (wordBytes e))[2 * i + j]? = (wordBytes e ws[i])[j]? := by
  induction ws generalizing i with
  | nil => simp at hi
  | cons w ws ih =>
    rw [List.flatMap_cons]
    cases i with
    | zero => rw [Nat.mul_zero, Nat.zero_add, List.getElem?_append_left (by simpa using hj)]; rfl
    | succ i =>
      rw [List.getElem?_append_right (by simp; omega), length_wordBytes,
        show 2 * (i + 1) + j - 2 = 2 * i + j by omega]
      exact ih i (by simpa using hi)

/-- The word that a reader of the two bytes of `w` sees: big is `w`, little has the bytes
exchanged (spec 20 R38, log entry 22). -/
theorem toNat_wordOfBytes_wordBytes (e : Endian) (w : Word) {b0 b1 : Byte}
    (h0 : (wordBytes e w)[0]? = some b0) (h1 : (wordBytes e w)[1]? = some b1) :
    256 * b0.toNat + b1.toNat = match e with
      | .big => w.toNat
      | .little => w.toNat % 256 * 256 + w.toNat / 256 := by
  cases e with
  | big =>
    obtain rfl : highByte w = b0 := Option.some.inj h0
    obtain rfl : lowByte w = b1 := Option.some.inj h1
    rw [toNat_highByte, toNat_lowByte]
    change _ = w.toNat
    omega
  | little =>
    obtain rfl : lowByte w = b0 := Option.some.inj h0
    obtain rfl : highByte w = b1 := Option.some.inj h1
    rw [toNat_highByte, toNat_lowByte]
    change _ = w.toNat % 256 * 256 + w.toNat / 256
    omega

/-! ## Canonical memory (spec 20; the model's own form) -/

/-- In a listing with rising addresses, looking an address up finds its entry. -/
theorem mem_iff_lookup {m : Memory} (hm : m.Pairwise (fun p q => p.1 < q.1)) (a : Nat) (b : Byte) :
    (a, b) ∈ m ↔ m.lookup a = some b := by
  induction m with
  | nil => simp
  | cons e m ih =>
    obtain ⟨k, v⟩ := e
    obtain ⟨hk, hm⟩ := List.pairwise_cons.1 hm
    rw [List.mem_cons, ih hm, lookup_cons]
    by_cases ha : a = k
    · have hnot : Memory.lookup m a ≠ some b := fun h => by
        have hlt : k < a := hk (a, b) ((ih hm).2 h)
        omega
      subst ha
      simp [hnot, eq_comm]
    · simp [ha]

theorem nodup_of_rising {m : Memory} (hm : m.Pairwise (fun p q => p.1 < q.1)) : m.Nodup :=
  hm.imp fun hlt heq => hlt.ne (congrArg Prod.fst heq)

/-- An entry of a canonical memory says what its address reads as, and that this differs from the
power-on contents. -/
theorem mem_iff_read {m : Memory} (hm : m.wf) (a : Nat) (b : Byte) :
    (a, b) ∈ m ↔ a < 4096 ∧ b ≠ Memory.background a ∧ m.read a = b := by
  obtain ⟨hsorted, hentry⟩ := hm
  have hread (ha : a < 4096) : m.read a = (m.lookup a).getD (Memory.background a) := by
    rw [Memory.read, Memory.wrap, Nat.mod_eq_of_lt ha]
  constructor
  · intro h
    obtain ⟨ha, hb⟩ := hentry _ h
    exact ⟨ha, hb, by rw [hread ha, (mem_iff_lookup hsorted a b).1 h]; rfl⟩
  · rintro ⟨ha, hb, hr⟩
    rw [mem_iff_lookup hsorted]
    rw [hread ha] at hr
    cases hl : m.lookup a with
    | none => rw [hl] at hr; exact absurd hr.symm hb
    | some c => rw [hl] at hr; exact congrArg some hr

/-! ## The statements -/

/-- Settles O49: the slice is stored byte by byte; read-back and frame are those of the bulk
store. -/
theorem storeBytesWritesTheSlice : Obligations.StoreBytesWritesTheSlice := by
  refine ⟨fun s a bs b => ?_, fun s a bs hlen =>
    ⟨_, rfl, fun i hi => loadByte_storeBytes s a hlen i hi, storeBytes_frame s a bs⟩⟩
  have happend : s.mem.writeBytes a (bs ++ [b]) = (s.mem.writeBytes a bs).write (a + bs.length) b :=
    writeBytes_append s.mem a bs [b]
  change Host.Outcome.next { s with mem := s.mem.writeBytes a (bs ++ [b]) } = _
  rw [happend]
  rfl

/-- Settles O50: a word store is the bulk store of the words' bytes, and a 16-bit read takes the two
bytes of one word. -/
theorem storeWordsByEndian : Obligations.StoreWordsByEndian := by
  intro s a ws e hlen
  have hbytes : s.storeWords a ws e = s.storeBytes a (ws.flatMap (wordBytes e)) := by
    rw [State.storeWords, writeWords_eq]; rfl
  have hlength := length_flatMap_wordBytes e ws
  refine ⟨s.storeWords a ws e, rfl, fun i hi => ?_, ?_⟩
  · have hbyte (j : Nat) (hj : j < 2) :
        (wordBytes e ws[i])[j]? = some ((s.storeWords a ws e).loadByte (a + 2 * i + j)) := by
      rw [← getElem_flatMap_wordBytes e ws i j hi hj, hbytes, Nat.add_assoc,
        loadByte_storeBytes s a (by omega) (2 * i + j) (by omega)]
      exact List.getElem?_eq_getElem _
    rw [toNat_loadWord]
    exact toNat_wordOfBytes_wordBytes e ws[i] (hbyte 0 (by decide)) (hbyte 1 (by decide))
  · rw [hbytes, ← hlength]
    exact storeBytes_frame s a _

/-- Settles O51: both listings are in rising order, and what each address reads as decides its
entry. -/
theorem canonicalMemoriesThatReadAlikeAreEqual :
    Obligations.CanonicalMemoriesThatReadAlikeAreEqual := by
  intro m m' hm hm' hread
  have hmem (c : Host.Cell) : c ∈ m ↔ c ∈ m' := by
    obtain ⟨a, b⟩ := c
    rw [mem_iff_read hm, mem_iff_read hm', hread]
  have hperm : m.Perm m' :=
    (List.perm_ext_iff_of_nodup (nodup_of_rising hm.1) (nodup_of_rising hm'.1)).2 hmem
  exact hperm.eq_of_pairwise (fun p q _ _ hpq hqp => absurd hpq hqp.asymm) hm.1 hm'.1

end Sys2Proof.Machine
end

-- Power-on, reset and the host's other transactions (spec 60 R135, R137; 70 R140, R141).
section

namespace Sys2Proof.Machine

/-! ## Blank register files -/

theorem readV_of_blank {s : State} (h : s.V = Vector.replicate 16 0#8) (x : Nibble) :
    s.readV x = 0#8 := by
  simp [State.readV, h]

/-- Power-on memory reads as the font and zeros. -/
theorem loadByte_reset (a : Nat) (h : a < 4096) :
    State.reset.loadByte a = Memory.background a := by
  rw [State.loadByte, show State.reset.mem = [] from rfl, read_nil, Memory.wrap, Nat.mod_eq_of_lt h]

theorem background_of_ge {a : Nat} (h : 80 ≤ a) : Memory.background a = 0#8 :=
  List.getD_eq_default _ _ h

/-! ## The statements -/

/-- Settles O57: the power-on state field by field; memory is the background. -/
theorem powerOnValues : Obligations.PowerOnValues := by
  refine ⟨rfl, rfl, rfl, readV_of_blank rfl, fun k => ?_, rfl, rfl, rfl, pixel_blank, fun k => ?_,
    rfl, fun a hlow hhigh => ?_, ?_⟩
  · exact Vector.getElem_replicate k.isLt
  · exact Vector.getElem_replicate k.isLt
  · rw [loadByte_reset a hhigh, background_of_ge hlow]
  · decide

/-- Settles O58: `reset()` takes the register file, the screen and the wait from the power-on state
and nothing else. -/
theorem resetAndPowerOnTransactions : Obligations.ResetAndPowerOnTransactions := by
  refine ⟨fun s => ⟨s.hostReset, rfl, rfl, rfl, rfl, readV_of_blank rfl, fun k => ?_, rfl, rfl, rfl,
    pixel_blank, ?_⟩, fun s seed => rfl⟩
  · exact Vector.getElem_replicate k.isLt
  · constructor
    case mem => exact fun _ _ => rfl
    case key => exact fun _ => rfl
    all_goals simp [State.hostReset]

/-- Settles O59: one latch entry is set, and with the latch and the list put back the state is as
it was. -/
theorem setKeyChangesOneEntry : Obligations.SetKeyChangesOneEntry := by
  intro s k pressed rest hp
  refine ⟨_, step_of_cons hp, fun j => isPressed_setKey { s with pending := rest } k pressed j, rfl⟩

/-- Settles O60: the two bytes placed at `PC` are read back as the word, with no wait open and
nothing pending the step fetches it. -/
theorem placedWordIsFetchedNext : Obligations.PlacedWordIsFetchedNext := by
  intro s w
  have hfetch : (s.withFetchWord 16 w).fetch = BitVec.ofNat 16 w := by
    have hword : tableWord 16 w = BitVec.ofNat 16 w := BitVec.eq_of_toNat_eq (by simp [tableWord])
    have hlen : (bytesOfWord (tableWord 16 w)).length = 2 := rfl
    have hread := read_writeBytes s.mem s.PC.toNat (bytesOfWord (tableWord 16 w)) (by omega)
    exact (congrArg₂ wordOfBytes (hread 0 (by omega)) (hread 1 (by omega))).trans
      ((wordOfBytes_high_low _).trans hword)
  refine ⟨hfetch, ?_, rfl, rfl⟩
  rw [step_of_nil rfl, interpreterStep_running rfl, hfetch]

end Sys2Proof.Machine
end
